-- ==== Sys2Proof/Word.lean ====
section
/-! DEFINITION. The widths of the block's values: a byte, a command word, a response value (spec/00_scope.md R4 to R6). -/

namespace Sys2Proof

/-- A byte: the width ACCW of the accumulator, of a buffer cell and of an `imm8` operand (R4, R6). -/
abbrev Byte := BitVec 8

/-- A command word, CMDW = 16 bits (R5, R61). -/
abbrev Cmd := BitVec 16

/-- A response value, XLEN = 32 bits (R5, R8, D2; log entry 7). -/
abbrev Word := BitVec 32

end Sys2Proof
end

