-- ==== Sys2Proof/Syntax.lean ====
section
/-! DEFINITION. The nine commands with their operands, and the rows of the opcode map
(spec/30_encoding.md R64, R67). -/

namespace Sys2Proof

/-- The byte order BO of a decode command: 0 is least significant byte first, 1 is most significant byte first (R67, R44). -/
inductive ByteOrder where
  | le
  | be
  deriving DecidableEq, Repr

/-- A command with its operands (R64). One constructor per row of spec/opcode_table.json. -/
inductive Instr where
  /-- CLR, end the current transaction (R135). -/
  | clr
  /-- RDST, read the status image (R136). -/
  | rdst
  /-- CRCI, initialise the accumulator (R94). -/
  | crci
  /-- CRCB, step the accumulator by one byte (R95). -/
  | crcb (imm8 : Byte)
  /-- CRCR, read the accumulator (R96). -/
  | crcr
  /-- CRCV, verify the accumulator against an expected byte (R97). -/
  | crcv (imm8 : Byte)
  /-- PUSH, append one byte to the buffer (R130). -/
  | push (imm8 : Byte)
  /-- SX, sign-extend the `n`-bit field of an `m`-byte buffer (R112). -/
  | sx (n m : Nat) (bo : ByteOrder)
  /-- EM, decode an exponent/mantissa register of `m` bytes (R116). -/
  | em (m : Nat) (bo : ByteOrder)
  deriving DecidableEq, Repr

/-- The names of the opcode map's rows (R64). -/
inductive Mnemonic where
  | CLR | RDST | CRCI | CRCB | CRCR | CRCV | PUSH | SX | EM
  deriving DecidableEq, Repr

/-- The row of the opcode map a command belongs to (R64). -/
def Instr.mnemonic : Instr → Mnemonic
  | .clr => .CLR
  | .rdst => .RDST
  | .crci => .CRCI
  | .crcb _ => .CRCB
  | .crcr => .CRCR
  | .crcv _ => .CRCV
  | .push _ => .PUSH
  | .sx _ _ _ => .SX
  | .em _ _ => .EM

/-- The command starts a new CRC or a new transaction: CRCI or CLR. -/
def Instr.startsOver : Instr → Bool
  | .clr => true
  | .crci => true
  | _ => false

/-- The command is a decode, SX or EM. -/
def Instr.isDecode : Instr → Bool
  | .sx _ _ _ => true
  | .em _ _ => true
  | _ => false

/-- A row of the opcode map: a word `w` is the row's command exactly when `w & mask == match` (R64). -/
structure OpcodeRow where
  name : Mnemonic
  pattern : Cmd
  mask : Cmd
  deriving DecidableEq, Repr

/-- Why a word is no command (R69): (a) an unassigned opcode, (b) a nonzero must-be-zero field. The block answers both
alike (R145); the names are the model's (log entry 18). -/
inductive IllegalWord where
  /-- The opcode field is one of 0x0, 0x3, 0x9, 0xC, 0xD, 0xE, 0xF. -/
  | unassignedOpcode
  /-- The opcode is assigned and a must-be-zero field is nonzero. -/
  | nonzeroReservedField
  deriving DecidableEq, Repr

end Sys2Proof
end

