-- ==== Sys2Proof/WellFormed.lean ====
section
/-! DEFINITION. Which commands a word can carry: the operand ranges of spec/30_encoding.md R67 and R73. A pair with
`n > 8*m`, or an EM of 3 or 4 bytes, is a legal word (R68) and well formed: it fails at execution, not here. -/

namespace Sys2Proof

/-- N is in 1..32 (R67). -/
def wfFieldWidth (n : Nat) : Bool := decide (1 ≤ n) && decide (n ≤ 32)

/-- M is in 1..4 (R67). -/
def wfByteCount (m : Nat) : Bool := decide (1 ≤ m) && decide (m ≤ 4)

/-- The operands are in the ranges a command word can hold (R67, R73). -/
def Instr.wellFormed : Instr → Bool
  | .clr => true
  | .rdst => true
  | .crci => true
  | .crcb _ => true
  | .crcr => true
  | .crcv _ => true
  | .push _ => true
  | .sx n m _ => wfFieldWidth n && wfByteCount m
  | .em m _ => wfByteCount m

end Sys2Proof
end

