-- ==== Sys2Proof/Decode.lean ====
section
/-! DEFINITION. The decoder of spec/30_encoding.md R68, total on all 65536 words, the encoder written from the format
tables R62, R63, R65, R66, and the opcode map R64. -/

namespace Sys2Proof

/-- The opcode field, `w[15:12]` (R61). -/
def opField (w : Cmd) : BitVec 4 := w.extractLsb' 12 4

/-- `imm8 = w[7:0]` (R67). -/
def imm8Field (w : Cmd) : Byte := w.extractLsb' 0 8

/-- `N = w[7:3] + 1` (R67). -/
def fieldWidthField (w : Cmd) : Nat := (w.extractLsb' 3 5).toNat + 1

/-- `M = w[2:1] + 1` (R67). -/
def byteCountField (w : Cmd) : Nat := (w.extractLsb' 1 2).toNat + 1

/-- `BO = w[0]`: 0 is LE, 1 is BE (R67). -/
def byteOrderField (w : Cmd) : ByteOrder := if w.getLsbD 0 then .be else .le

/-- A command whose must-be-zero field is `zeros`; any nonzero bit there makes the word illegal (R68). -/
def requireZero {k : Nat} (zeros : BitVec k) (i : Instr) : Except IllegalWord Instr :=
  if zeros = 0#k then .ok i else .error .nonzeroReservedField

/-- The decoder, case by case as R68 writes it. -/
def decode (w : Cmd) : Except IllegalWord Instr :=
  match opField w with
  | 0x1#4 => requireZero (w.extractLsb' 0 12) .clr
  | 0x2#4 => requireZero (w.extractLsb' 0 12) .rdst
  | 0x4#4 => requireZero (w.extractLsb' 0 12) .crci
  | 0x5#4 => requireZero (w.extractLsb' 8 4) (.crcb (imm8Field w))
  | 0x6#4 => requireZero (w.extractLsb' 0 12) .crcr
  | 0x7#4 => requireZero (w.extractLsb' 8 4) (.crcv (imm8Field w))
  | 0x8#4 => requireZero (w.extractLsb' 8 4) (.push (imm8Field w))
  | 0xA#4 => requireZero (w.extractLsb' 8 4) (.sx (fieldWidthField w) (byteCountField w) (byteOrderField w))
  | 0xB#4 => requireZero (w.extractLsb' 3 9) (.em (byteCountField w) (byteOrderField w))
  | _ => .error .unassignedOpcode

/-- The command word whose low `nbits` bits are those of `w` and whose other bits are 0, bit 0 of spec/opcode_table.json's
numbering being bit 0 of the word (R6; log entry 13). -/
def tableWord (nbits w : Nat) : Cmd := BitVec.ofNat 16 (w % 2 ^ nbits)

/-- The instruction this decoder reads from the `nbits` low bits of `w`, numbered as spec/opcode_table.json numbers
them. A command word is presented whole and has no byte order (R44 (a); log entry 13). -/
def decodeTableWord (nbits w : Nat) : Option Instr :=
  (decode (tableWord nbits w)).toOption

/-- The bit that stands for a byte order (R67). -/
def ByteOrder.bit : ByteOrder → BitVec 1
  | .le => 0#1
  | .be => 1#1

/-- Format Z (R62). -/
def encodeZ (op : BitVec 4) : Cmd := op ++ 0#12

/-- Format B (R63). -/
def encodeB (op : BitVec 4) (imm8 : Byte) : Cmd := op ++ 0#4 ++ imm8

/-- Format F, with the "minus one" coding of N and M (R65, R67). -/
def encodeF (op : BitVec 4) (n m : Nat) (bo : ByteOrder) : Cmd :=
  op ++ 0#4 ++ BitVec.ofNat 5 (n - 1) ++ BitVec.ofNat 2 (m - 1) ++ bo.bit

/-- Format G, with the "minus one" coding of M (R66, R67). -/
def encodeG (op : BitVec 4) (m : Nat) (bo : ByteOrder) : Cmd :=
  op ++ 0#9 ++ BitVec.ofNat 2 (m - 1) ++ bo.bit

/-- The word of a well-formed command (R64 and the format tables). -/
def encode : Instr → Cmd
  | .clr => encodeZ 0x1#4
  | .rdst => encodeZ 0x2#4
  | .crci => encodeZ 0x4#4
  | .crcb b => encodeB 0x5#4 b
  | .crcr => encodeZ 0x6#4
  | .crcv b => encodeB 0x7#4 b
  | .push b => encodeB 0x8#4 b
  | .sx n m bo => encodeF 0xA#4 n m bo
  | .em m bo => encodeG 0xB#4 m bo

/-- The row of the opcode map for a mnemonic: its `match` and `mask` (R64). -/
def opcodeRow : Mnemonic → OpcodeRow
  | .CLR => { name := .CLR, pattern := 0x1000#16, mask := 0xFFFF#16 }
  | .RDST => { name := .RDST, pattern := 0x2000#16, mask := 0xFFFF#16 }
  | .CRCI => { name := .CRCI, pattern := 0x4000#16, mask := 0xFFFF#16 }
  | .CRCB => { name := .CRCB, pattern := 0x5000#16, mask := 0xFF00#16 }
  | .CRCR => { name := .CRCR, pattern := 0x6000#16, mask := 0xFFFF#16 }
  | .CRCV => { name := .CRCV, pattern := 0x7000#16, mask := 0xFF00#16 }
  | .PUSH => { name := .PUSH, pattern := 0x8000#16, mask := 0xFF00#16 }
  | .SX => { name := .SX, pattern := 0xA000#16, mask := 0xFF00#16 }
  | .EM => { name := .EM, pattern := 0xB000#16, mask := 0xFFF8#16 }

/-- A word is the command of a row exactly when `w & mask == match` (R64). -/
def OpcodeRow.selects (r : OpcodeRow) (w : Cmd) : Bool := (w &&& r.mask) == r.pattern

/-- The word a line of assembler stands for, by the arithmetic of R73's table (for well-formed operands). -/
def assemblerWord : Instr → Nat
  | .clr => 0x1000
  | .rdst => 0x2000
  | .crci => 0x4000
  | .crcb b => 0x5000 + b.toNat
  | .crcr => 0x6000
  | .crcv b => 0x7000 + b.toNat
  | .push b => 0x8000 + b.toNat
  | .sx n m bo => 0xA000 + ((n - 1) <<< 3) + ((m - 1) <<< 1) + bo.bit.toNat
  | .em m bo => 0xB000 + ((m - 1) <<< 1) + bo.bit.toNat

end Sys2Proof
end

