-- ==== Sys2Proof/Config.lean ====
section
/-! DEFINITION. The parameters of the block (spec/00_scope.md R4, R5). All are constants: the first group is fixed by
the source, the second by the spec's decisions D3 and D6 (the
widths XLEN = 32 and CMDW = 16 are the types of Sys2Proof/Word.lean). Nothing of the block is non-deterministic (spec/93 section 2),
so there is no free value here. -/

namespace Sys2Proof.Config

/-- POLY, the constant XORed into the accumulator (R4). -/
def poly : Byte := 0x31#8

/-- INIT, the accumulator at the start of every CRC computation (R4). -/
def init : Byte := 0xFF#8

/-- EXPW, the width of the exponent field, "top nibble" (R4). -/
def expw : Nat := 4

/-- BUFCAP, the capacity of the byte buffer (R5, D3; log entry 7). -/
def bufcap : Nat := 4

/-- The widest register EM decodes, in bytes (R5, D6). -/
def emMaxBytes : Nat := 2

end Sys2Proof.Config
end

