-- ==== Sys2Proof/Machine/State.lean ====
section
/-! DEFINITION. The state of the block (spec/10_state.md R20), the model's own two interface fields, responses
(spec/00_scope.md R8), and the two ways a step could stop, neither of which ever happens (R9, R148). -/

namespace Sys2Proof.Machine

/-- The failure codes of spec/60_exceptions.md R141. -/
inductive FailCode where
  /-- Reserved for the bus side; the block never produces it (R151). -/
  | transport
  /-- A length mismatch: PUSH, SX, EM (R142). -/
  | length
  /-- A decode asked for while CRCERR = 1: SX, EM (R143). -/
  | checksum
  /-- Format parameters out of range: SX, EM (R144). -/
  | decode
  /-- The word is no command (R145). -/
  | illegal
  deriving DecidableEq, Repr

/-- The answer to one command: a value, or a failure that carries no value (R8). -/
inductive Response where
  | ok (v : Word)
  | fail (c : FailCode)
  deriving DecidableEq, Repr

/-- What the host presents: a command word on `cmd`, or a reset on `rst` between two commands (R60, R170). -/
inductive HostInput where
  | cmd (w : Cmd)
  | rst
  deriving DecidableEq, Repr

/-- The block's one memory, BUF: its bytes in arrival order (R20, R24, R40). Index i holds `mem[i]`; an index at or
above the length is not state and reads as no value (R20, V2; log entry 5). -/
abbrev Memory := List Byte

/-- The canonical form of BUF: at most BUFCAP = 4 bytes (R20). -/
def Memory.wf (mem : Memory) : Bool := decide (mem.length ≤ Config.bufcap)

/-- The state. `acc`, `buf`, `crcErr` and `ovf` are R20's state, exactly (LEN is the length of `buf`). `inputs` and
`rsps` are the model's: the host's stream, which R9 makes a parameter of a run, and the responses given so far
(log entries 1 and 2). -/
structure State where
  /-- ACC, the CRC accumulator (R23). -/
  acc : Byte
  /-- BUF, the byte buffer (R24). -/
  buf : Memory
  /-- CRCERR, the sticky checksum-failure flag (R25). -/
  crcErr : Bool
  /-- OVF, the sticky buffer-overflow flag (R26). -/
  ovf : Bool
  /-- MODEL: what the host still presents, oldest first (R9, R48; log entry 1). -/
  inputs : List HostInput
  /-- MODEL: the responses given so far, oldest first (R8, R48; log entry 2). -/
  rsps : List Response
  deriving DecidableEq, Repr

/-- Why the machine would stop with a fault: never. A failure is an ordinary response after which the block goes on, and
"there is no state in which the block stops accepting commands" (R148; log entry 15). No constructor: nothing raises
a fault, which is exact (neither safe nor unsafe). -/
inductive Fault where
  deriving DecidableEq, Repr

/-- Why a step would have no meaning. -/
inductive Refusal where
  /-- Raised by `exec` alone, for an instruction not modelled yet; no arm raises it now. Safe. -/
  | notModelled (mnemonic : String)
  deriving DecidableEq, Repr

/-- The state right after reset (R30), with nothing presented and nothing answered (log entries 1 and 2). -/
def State.reset : State where
  acc := Config.init
  buf := []
  crcErr := false
  ovf := false
  inputs := []
  rsps := []

end Sys2Proof.Machine
end

