-- ==== Sys2Proof/Machine/Ops.lean ====
section
/-! DEFINITION. The named operations over the state: the ports (spec/30_encoding.md R60, R72), the buffer write
(spec/20_memory.md R42), the reset of the registers (spec/70_reset_and_hazards.md R170), and the two ways a command
ends, `ok` and `fail` (spec/00_scope.md R7). -/

namespace Sys2Proof.Machine

/-- What a step, or a command, answers. -/
abbrev Result := Host.Outcome State Fault Refusal

/-- LEN, the number of bytes in BUF (R20). -/
def State.len (s : State) : Nat := s.buf.length

/-- The byte of BUF at an index; no value at LEN and above (R20, V2). -/
def State.bufByte (s : State) (i : Nat) : Option Byte := s.buf[i]?

/-- The next thing the host presents, and the state without it; none when nothing is presented (R9, R48). -/
def State.takeInput (s : State) : Option (HostInput × State) :=
  match s.inputs with
  | [] => none
  | x :: rest => some (x, { s with inputs := rest })

/-- One response, after all earlier ones (R8, R48). -/
def State.respond (r : Response) (s : State) : State := { s with rsps := s.rsps ++ [r] }

/-- `ok(v)`: the command ends and the response is `Ok(v)` (R7). -/
def answerOk (v : Word) (s : State) : Result := .next (s.respond (.ok v))

/-- `fail CODE`, the block's one way of raising a failure: the command ends, nothing is saved, nothing is written by
the failure itself, the response is `Fail(CODE)`, and the block goes on (R7, R140, R148). There is no return from it
(R149). -/
def answerFail (c : FailCode) (s : State) : Result := .next (s.respond (.fail c))

/-- A command that ends with either kind of response and writes no register. -/
def answer (r : Response) (s : State) : Result :=
  match r with
  | .ok v => answerOk v s
  | .fail c => answerFail c s

/-- ACC <- v (R7, R23). -/
def State.setAcc (v : Byte) (s : State) : State := { s with acc := v }

/-- `BufAppend(b)`, the block's only memory write: the byte goes to index LEN, which increases by one (R42). -/
def State.bufAppend (b : Byte) (s : State) : State := { s with buf := s.buf ++ [b] }

/-- Every register at its reset value, whatever it was (R30, R170). The host's stream and the responses are not the
block's state and stay (R20). -/
def State.resetRegisters (s : State) : State :=
  { s with acc := Config.init, buf := [], crcErr := false, ovf := false }

/-- Nothing is presented: the state persists (R9; log entry 4). -/
def answerIdle (s : State) : Result := .next s

/-- A reset between two commands: the registers take their reset values and there is no response (R170; log entry 3). -/
def answerReset (s : State) : Result := .next s.resetRegisters

/-- A word that is no command, for whichever reason: Fail(ILLEGAL), and no register changes (R69, R145). -/
def answerIllegal (_ : IllegalWord) (s : State) : Result := answerFail .illegal s

/-- The host puts a command word in front of what it presents next. -/
def State.presentWord (w : Cmd) (s : State) : State := { s with inputs := .cmd w :: s.inputs }

/-- The host presents a list of command words and nothing else (R9). -/
def State.presentAll (ws : List Cmd) (s : State) : State := { s with inputs := ws.map .cmd }

/-- The number of a failure code on `rsp_status` (R72, R141). -/
def FailCode.number : FailCode → BitVec 3
  | .transport => 1#3
  | .length => 2#3
  | .checksum => 3#3
  | .decode => 4#3
  | .illegal => 5#3

/-- `rsp_status`: 0 for OK, else the failure's number (R72). -/
def Response.status : Response → BitVec 3
  | .ok _ => 0#3
  | .fail c => c.number

/-- `rsp_value`, defined only when `rsp_status` = 0 (R72, V1; log entry 9). -/
def Response.value? : Response → Option Word
  | .ok v => some v
  | .fail _ => none

end Sys2Proof.Machine
end

