-- ==== Sys2Proof/Machine/Flags.lean ====
section
/-! DEFINITION. The two sticky flags and the status image (spec/10_state.md R25 to R27). -/

namespace Sys2Proof.Machine

/-- CRCERR <- 1. Only `State.resetRegisters` clears it (R25). -/
def State.raiseCrcErr (s : State) : State := { s with crcErr := true }

/-- OVF <- 1. Only `State.resetRegisters` clears it (R26). -/
def State.raiseOvf (s : State) : State := { s with ovf := true }

/-- The status image: OVF in bit 4, CRCERR in bit 3, LEN in bits [2:0], zeros above (R27, R136). -/
def State.statusImage (s : State) : Word :=
  (BitVec.ofBool s.ovf ++ BitVec.ofBool s.crcErr ++ BitVec.ofNat 3 s.len).setWidth 32

end Sys2Proof.Machine
end

