-- ==== Sys2Proof/Machine/BufferFamily.lean ====
section
/-! DEFINITION. The buffer family, PUSH (spec/42_buffer.md R130). -/

namespace Sys2Proof.Machine

/-- PUSH: append the byte, or, when LEN = BUFCAP, refuse it and set OVF (R130). The comparison is with 4 exactly, as the
rule writes it (R29; log entry 6). -/
def execPush (imm8 : Byte) (s : State) : Result :=
  if s.len = Config.bufcap then answerFail .length s.raiseOvf else answerOk 0#32 (s.bufAppend imm8)

end Sys2Proof.Machine
end

