-- ==== Sys2Proof/Machine/Crc8.lean ====
section
/-! DEFINITION. The CRC-8 algorithm of spec/40_crc8.md: bit step, byte step, table form, whole sequence, verification
(R90 to R93, R98, R99). -/

namespace Sys2Proof.Machine

/-- The bit step: shift left, and XOR with POLY when the bit shifted out was 1 (R91). -/
def crc8Bit (a : Byte) : Byte :=
  if a.getLsbD 7 then (a <<< 1) ^^^ Config.poly else a <<< 1

/-- `k` bit steps. -/
def crc8Bits : Nat → Byte → Byte
  | 0, a => a
  | k + 1, a => crc8Bits k (crc8Bit a)

/-- The byte step: XOR the whole byte in, then exactly eight bit steps (R92). -/
def crc8Byte (a d : Byte) : Byte := crc8Bits 8 (a ^^^ d)

/-- The table `T[b] = crc8_byte(0x00, b)` (R93). -/
def crc8Table (b : Byte) : Byte := crc8Byte 0x00#8 b

/-- The fold of the byte step over a sequence (R98). -/
def crc8Fold (a : Byte) : List Byte → Byte
  | [] => a
  | d :: rest => crc8Fold (crc8Byte a d) rest

/-- `ComputeCrc8` (R98). -/
def computeCrc8 (data : List Byte) : Byte := crc8Fold Config.init data

/-- `VerifyCrc8`: equality of all eight bits (R99). -/
def verifyCrc8 (data : List Byte) (expected : Byte) : Bool := computeCrc8 data == expected

/-- A frame with a trailing CRC: its last byte is the CRC of the bytes before it. The empty sequence is no frame (R99). -/
def validFrame (frame : List Byte) : Bool :=
  match frame.getLast? with
  | none => false
  | some c => verifyCrc8 frame.dropLast c

end Sys2Proof.Machine
end

