-- ==== Sys2Proof/Machine/CrcFamily.lean ====
section
/-! DEFINITION. The CRC family, CRCI, CRCB, CRCR, CRCV (spec/40_crc8.md R94 to R97). -/

namespace Sys2Proof.Machine

/-- CRCI: ACC <- 0xFF; CRCERR stays (R94). -/
def execCrci (s : State) : Result := answerOk 0#32 (s.setAcc Config.init)

/-- CRCB: ACC <- crc8_byte(ACC, imm8) (R95). -/
def execCrcb (imm8 : Byte) (s : State) : Result := answerOk 0#32 (s.setAcc (crc8Byte s.acc imm8))

/-- CRCR: the response is ACC, zero-extended; ACC stays (R96). -/
def execCrcr (s : State) : Result := answerOk (s.acc.setWidth 32) s

/-- CRCV: the response is the verdict, 1 or 0; a mismatch sets CRCERR, a match clears nothing (R97). -/
def execCrcv (imm8 : Byte) (s : State) : Result :=
  if s.acc = imm8 then answerOk 1#32 s else answerOk 0#32 s.raiseCrcErr

end Sys2Proof.Machine
end

