-- ==== Sys2Proof/Machine/Operands.lean ====
section
/-! DEFINITION. How a decode command reads its operand from BUF: admission (spec/41_decode.md R111), the buffer read in
either byte order (spec/20_memory.md R43), bit fields and sign extension (spec/00_scope.md R6, R7). -/

namespace Sys2Proof.Machine

/-- `v[hi:lo]`, the field from bit `hi` down to bit `lo` (R6). -/
def bits (v hi lo : Nat) : Nat := (v >>> lo) % 2 ^ (hi + 1 - lo)

/-- `sext_32(f, n)`: bits [n-1:0] are those of `f`, all higher bits equal bit n-1 (R7). -/
def sext32 (f n : Nat) : Word := (BitVec.ofNat n f).signExtend 32

/-- The distance in bits from bit 0 of the byte at index `i` of an `m`-byte value (R43). -/
def byteShift (m : Nat) (bo : ByteOrder) (i : Nat) : Nat :=
  match bo with
  | .le => 8 * i
  | .be => 8 * (m - 1 - i)

/-- `BufRead(M, BO)`: the unsigned value assembled from all the bytes of BUF, of which there are `m` when a command
reads it (R43). It changes nothing. -/
def State.bufRead (s : State) (m : Nat) (bo : ByteOrder) : Nat :=
  (s.buf.zipIdx.map fun p => p.1.toNat <<< byteShift m bo p.2).sum

/-- The three tests before any decode, in order; the first that fails gives the code (R111, R147). -/
def State.decodeAdmit (s : State) (m : Nat) (formatOk : Bool) : Option FailCode :=
  if s.ovf = true ∨ s.len ≠ m then some .length
  else if s.crcErr = true then some .checksum
  else if formatOk = false then some .decode
  else none

/-- SX's `format_ok`: the field fits the buffer (R111, R112). -/
def sxFormatOk (n m : Nat) : Bool := decide (n ≤ 8 * m)

/-- EM's `format_ok`: a register of at most 16 bits (R111, R116). -/
def emFormatOk (m : Nat) : Bool := decide (m ≤ Config.emMaxBytes)

/-- The exponent `v[W-1:W-4]` of a register of `m` bytes, W = 8*m (R115). -/
def emExponent (v m : Nat) : Nat := bits v (8 * m - 1) (8 * m - Config.expw)

/-- The mantissa `v[W-5:0]` of a register of `m` bytes, W = 8*m (R115). -/
def emMantissa (v m : Nat) : Nat := bits v (8 * m - Config.expw - 1) 0

end Sys2Proof.Machine
end

