-- ==== Sys2Proof/Machine/DecodeFamily.lean ====
section
/-! DEFINITION. The decode family, SX and EM (spec/41_decode.md R112, R116). Neither writes a register (R119). -/

namespace Sys2Proof.Machine

/-- The value SX answers when it is admitted: the low `n` bits of the buffer, sign-extended (R112). -/
def State.sxValue (s : State) (n m : Nat) (bo : ByteOrder) : Word :=
  sext32 (bits (s.bufRead m bo) (n - 1) 0) n

/-- The value EM answers when it is admitted: `zext_32(MANT) << E` (R116). -/
def State.emValue (s : State) (m : Nat) (bo : ByteOrder) : Word :=
  BitVec.ofNat 32 (emMantissa (s.bufRead m bo) m) <<< emExponent (s.bufRead m bo) m

/-- SX's response (R112). -/
def State.sxResponse (s : State) (n m : Nat) (bo : ByteOrder) : Response :=
  match s.decodeAdmit m (sxFormatOk n m) with
  | some c => .fail c
  | none => .ok (s.sxValue n m bo)

/-- EM's response (R116). -/
def State.emResponse (s : State) (m : Nat) (bo : ByteOrder) : Response :=
  match s.decodeAdmit m (emFormatOk m) with
  | some c => .fail c
  | none => .ok (s.emValue m bo)

/-- SX (R112). -/
def execSx (n m : Nat) (bo : ByteOrder) (s : State) : Result := answer (s.sxResponse n m bo) s

/-- EM (R116). -/
def execEm (m : Nat) (bo : ByteOrder) (s : State) : Result := answer (s.emResponse m bo) s

end Sys2Proof.Machine
end

