-- ==== Sys2Proof/Machine/SystemFamily.lean ====
section
/-! DEFINITION. The system family, CLR and RDST (spec/43_system.md R135, R136). -/

namespace Sys2Proof.Machine

/-- CLR: the state becomes the reset state (R135, R171). -/
def execClr (s : State) : Result := answerOk 0#32 s.resetRegisters

/-- RDST: the response is the status image; nothing is written (R136). -/
def execRdst (s : State) : Result := answerOk s.statusImage s

end Sys2Proof.Machine
end

