-- ==== Sys2Proof/Machine/Dispatch.lean ====
section
/-! DEFINITION. One arm per command, each one direct call of its meaning (spec/30_encoding.md R64). -/

namespace Sys2Proof.Machine

def exec (i : Instr) (s : State) : Host.Outcome State Fault Refusal :=
  match i with
  | .clr => Sys2Proof.Machine.execClr s
  | .rdst => Sys2Proof.Machine.execRdst s
  | .crci => Sys2Proof.Machine.execCrci s
  | .crcb imm8 => Sys2Proof.Machine.execCrcb imm8 s
  | .crcr => Sys2Proof.Machine.execCrcr s
  | .crcv imm8 => Sys2Proof.Machine.execCrcv imm8 s
  | .push imm8 => Sys2Proof.Machine.execPush imm8 s
  | .sx n m bo => Sys2Proof.Machine.execSx n m bo s
  | .em m bo => Sys2Proof.Machine.execEm m bo s

end Sys2Proof.Machine
end

