-- ==== Sys2Proof/Machine/Step.lean ====
section
/-! DEFINITION. One step: the block takes what the host presents next (spec/00_scope.md R9). A legal word is executed, an
illegal one is answered Fail(ILLEGAL) and changes no register (spec/30_encoding.md R69), a reset puts the registers at
their reset values and gives no response (spec/70_reset_and_hazards.md R170), and with nothing presented the state
persists (R9; log entry 4). -/

namespace Sys2Proof.Machine

def step (s : State) : Host.Outcome State Fault Refusal :=
  match s.takeInput with
  | none => answerIdle s
  | some (.rst, t) => answerReset t
  | some (.cmd w, t) =>
    match decode w with
    | .ok i => exec i t
    | .error why => answerIllegal why t

/-- The state with the command word whose low `nbits` bits are those of `w` as the next thing the host presents
(log entry 10). Whatever was presented before comes after it. -/
def State.withFetchWord (s : State) (nbits w : Nat) : State :=
  s.presentWord (tableWord nbits w)

end Sys2Proof.Machine
end

