-- ==== Sys2Proof/Machine/Macros.lean ====
section
/-! DEFINITION. The macros of spec/30_encoding.md R74: each expands to a fixed sequence of commands. A macro is no
command, has no encoding, and the block never sees it. -/

namespace Sys2Proof.Machine

/-- `CRC8 d0, ..., d(n-1)`: CRCI, one CRCB per byte in order, CRCR (R74). -/
def macroCrc8 (data : List Byte) : List Instr := .crci :: data.map .crcb ++ [.crcr]

/-- `VCRC8 d0, ..., d(n-1) / e`: CRCI, one CRCB per byte in order, CRCV e (R74). -/
def macroVcrc8 (data : List Byte) (e : Byte) : List Instr := .crci :: data.map .crcb ++ [.crcv e]

/-- `LOAD d0, ..., d(m-1)`: CLR, one PUSH per byte in order (R74). -/
def macroLoad (data : List Byte) : List Instr := .clr :: data.map .push

/-- `LOADV d0, ..., d(m-1) / c`: CLR, each byte to PUSH and then to CRCB, CRCV c (R74). -/
def macroLoadv (data : List Byte) (c : Byte) : List Instr :=
  .clr :: data.flatMap (fun d => [.push d, .crcb d]) ++ [.crcv c]

/-- `S16BE`, `S16LE` (R74). -/
def macroS16 (bo : ByteOrder) : List Instr := [.sx 16 2 bo]

/-- `S24BE`, `S24LE` (R74). -/
def macroS24 (bo : ByteOrder) : List Instr := [.sx 24 3 bo]

/-- `EM16BE`, `EM16LE` (R74). -/
def macroEm16 (bo : ByteOrder) : List Instr := [.em 2 bo]

/-- `EM8` (R74). -/
def macroEm8 : List Instr := [.em 1 .le]

end Sys2Proof.Machine
end

