-- ==== Sys2Proof/Machine/Run.lean ====
section
/-! DEFINITION. A run: the left fold of the step over a finite list of command words (spec/00_scope.md R9), and the
same over commands already decoded. -/

namespace Sys2Proof.Machine

/-- `k` steps, stopping at the first that gives no next state (none does, R148). -/
def runSteps : Nat → State → Result
  | 0, s => .next s
  | k + 1, s =>
    match step s with
    | .next t => runSteps k t
    | .fault r => .fault r
    | .refused r => .refused r

/-- Present the words `ws`, then take one step per word (R9). -/
def runWords (ws : List Cmd) (s : State) : Result := runSteps ws.length (s.presentAll ws)

/-- The commands `is` executed in order. -/
def execAll : List Instr → State → Result
  | [], s => .next s
  | i :: rest, s =>
    match exec i s with
    | .next t => execAll rest t
    | .fault r => .fault r
    | .refused r => .refused r

end Sys2Proof.Machine
end

