-- ==== Sys2Proof/Safety.lean ====
section
/-! DEFINITION. What the claims speak of: the invariant of reachable states (spec/10_state.md R29), a run without
a failure (spec/60_exceptions.md R148), and the host duties of spec/70_reset_and_hazards.md R175 to R178 as checks on what
the host does in one transaction (log entry 17). -/

namespace Sys2Proof.Machine

/-- The invariant of reachable states: LEN is at most 4, and OVF = 1 only with LEN = 4 (R29). -/
abbrev State.Inv (s : State) : Prop := Memory.wf s.buf = true ∧ (s.ovf = true → s.len = 4)

/-- Every register of `t` is as in `s`: ACC, both flags, and every byte of BUF (R20). -/
def sameRegisters (s t : State) : Prop :=
  t.acc = s.acc ∧ t.crcErr = s.crcErr ∧ t.ovf = s.ovf ∧ t.len = s.len ∧ ∀ i, t.bufByte i = s.bufByte i

/-- From `s` to `t` exactly the response `r` was given, and nothing more was taken from the host (R8). -/
def answeredWith (s t : State) (r : Response) : Prop := t.rsps = s.rsps ++ [r] ∧ t.inputs = s.inputs

/-- The last response given by a step or run that went on. -/
def lastResponse (r : Result) : Option Response :=
  match r with
  | .next t => t.rsps.getLast?
  | .fault _ => none
  | .refused _ => none

/-- No response of a run is a failure; whether a failure counts as "gone wrong" is for a claim to say (R148). -/
def noFailure (rs : List Response) : Bool := rs.all fun r => r.status == 0#3

/-- The bytes a list of commands pushes, in order (R131). -/
def pushedBytes : List Instr → List Byte
  | [] => []
  | .push b :: rest => b :: pushedBytes rest
  | _ :: rest => pushedBytes rest

/-- The bytes a list of commands feeds to the accumulator, in order (R98). -/
def checkedBytes : List Instr → List Byte
  | [] => []
  | .crcb b :: rest => b :: checkedBytes rest
  | _ :: rest => checkedBytes rest

/-- The verdicts a list of commands asks for: at each CRCV, the bytes fed to the accumulator since the last CLR or CRCI
(`word` at the start) and the CRC byte expected (R97 to R99). -/
def verdicts (word : List Byte) : List Instr → List (List Byte × Byte)
  | [] => []
  | .clr :: rest => verdicts [] rest
  | .crci :: rest => verdicts [] rest
  | .crcb b :: rest => verdicts (word ++ [b]) rest
  | .crcv c :: rest => (word, c) :: verdicts word rest
  | _ :: rest => verdicts word rest

/-- What a host does to the block, in terms of commands: it issues one, or it asserts reset between two (R60, R170). -/
inductive HostEvent where
  | command (i : Instr)
  | reset
  deriving DecidableEq, Repr

/-- What the block is presented with for an event. -/
def HostEvent.input : HostEvent → HostInput
  | .command i => .cmd (encode i)
  | .reset => .rst

/-- The event is a decode, SX or EM. -/
def HostEvent.isDecode : HostEvent → Bool
  | .command i => i.isDecode
  | .reset => false

/-- R175's duty, for the events of one device transaction: CLR or reset comes before its first PUSH. `fresh` says the
transaction begins in the reset state, the block having been reset or cleared just before it. -/
def clearsBeforeFirstPush (fresh : Bool) : List HostEvent → Bool
  | [] => true
  | .reset :: _ => true
  | .command i :: rest =>
    match i with
    | .clr => true
    | .push _ => fresh
    | _ => clearsBeforeFirstPush fresh rest

/-- R176's duty: no CRCB unless ACC was brought to 0xFF, by reset, CLR or CRCI, since the last CRCV. `ready` says it was. -/
def initBeforeEachWord (ready : Bool) : List HostEvent → Bool
  | [] => true
  | .reset :: rest => initBeforeEachWord true rest
  | .command i :: rest =>
    match i with
    | .clr => initBeforeEachWord true rest
    | .crci => initBeforeEachWord true rest
    | .crcv _ => initBeforeEachWord false rest
    | .crcb _ => ready && initBeforeEachWord ready rest
    | _ => initBeforeEachWord ready rest

/-- What R177 and R178 look back on at a point of a transaction. Only bytes that carry a CRC are in `pushed`; R177 makes the
k-th of them the k-th byte of `verified`. -/
structure CheckRecord where
  /-- How many bytes were pushed, with a CRC or without. -/
  pushes : Nat
  /-- The bytes pushed that carry a CRC, in order. -/
  pushed : List Byte
  /-- How many of `pushed` a CLR or a reset has taken out of BUF. -/
  dropped : Nat
  /-- The bytes of the words a CRCV was given for, in the order they were fed to CRCB. -/
  verified : List Byte
  /-- The bytes fed to CRCB since the last CRCV, CRCI, CLR or reset: no verdict is given on them yet. -/
  word : List Byte
  deriving DecidableEq, Repr

/-- The record at the beginning of a transaction. -/
def CheckRecord.start : CheckRecord := { pushes := 0, pushed := [], dropped := 0, verified := [], word := [] }

/-- CLR and reset empty BUF and begin a word: the one before it, if no CRCV was given for it, is given up. -/
def CheckRecord.clear (r : CheckRecord) : CheckRecord := { r with dropped := r.pushed.length, word := [] }

/-- The record after one more event. `carriesCrc k` says that the k-th byte the transaction pushes, counted from 0, carries
a CRC. -/
def CheckRecord.after (carriesCrc : Nat → Bool) (r : CheckRecord) : HostEvent → CheckRecord
  | .reset => r.clear
  | .command i =>
    match i with
    | .clr => r.clear
    | .crci => { r with word := [] }
    | .crcb b => { r with word := r.word ++ [b] }
    | .crcv _ => { r with verified := r.verified ++ r.word, word := [] }
    | .push b => { r with pushes := r.pushes + 1, pushed := if carriesCrc r.pushes then r.pushed ++ [b] else r.pushed }
    | .rdst => r
    | .crcr => r
    | .sx _ _ _ => r
    | .em _ _ => r

/-- A CRCV was given for every byte in BUF that carries a CRC: the k-th of them pushed is the k-th verified, and the same. -/
def CheckRecord.bufVerified (r : CheckRecord) : Bool := (r.pushed.drop r.dropped).isPrefixOf (r.verified.drop r.dropped)

/-- R177's duty, at the end of a transaction: the bytes pushed that carry a CRC are, in the same order, the bytes of the words
a CRCV was given for. A word given up before its CRCV, or fed for CRCR alone, is no part of a checked frame. -/
def feedsBothPaths (carriesCrc : Nat → Bool) (es : List HostEvent) : Bool :=
  let r := es.foldl (CheckRecord.after carriesCrc) .start
  r.pushed == r.verified

/-- R178's duty: at every SX and EM, the CRCV of every byte in BUF that carries a CRC has been issued. "Data without a CRC
needs no CRCV." -/
def verifiesBeforeDecode (carriesCrc : Nat → Bool) (r : CheckRecord) : List HostEvent → Bool
  | [] => true
  | e :: rest => (!e.isDecode || r.bufVerified) && verifiesBeforeDecode carriesCrc (r.after carriesCrc e) rest

/-- The host duties R175 to R178 for the events of one device transaction. `fresh` is as in `clearsBeforeFirstPush`,
`carriesCrc` as in `CheckRecord.after`. -/
def keepsHostDuties (fresh : Bool) (carriesCrc : Nat → Bool) (es : List HostEvent) : Bool :=
  clearsBeforeFirstPush fresh es && initBeforeEachWord fresh es && feedsBothPaths carriesCrc es &&
    verifiesBeforeDecode carriesCrc .start es

/-- The values a host may use of a transaction, from its commands with their responses: those of SX and EM that are Ok
(R180), and none at all when some CRCV of the transaction answered 0, be it before or after (R178). -/
def usableValues (log : List (Instr × Response)) : List Word :=
  if log.any (fun p => match p with | (.crcv _, .ok v) => v == 0#32 | _ => false) then []
  else log.filterMap fun p => if p.1.isDecode then p.2.value? else none

end Sys2Proof.Machine
end

