-- ==== Sys2Proof/Certificates/Slice0/Obligations.lean ====
section
/-! DEFINITION. The statements for the provers. Each docstring names the rules of spec/ the statement formalises. The order
is: encodings, the step, each command's result and frame, failures, registers over all steps, the CRC, runs. -/

open Sys2Proof Sys2Proof.Machine

/-- Formats Z, B, F, G and the decoder (R62, R63, R65 to R68): every well-formed command, with every operand at every value a
word admits, is read back from the word that encodes it. -/
def Obligations.DecodeEncodeRoundTrip : Prop :=
  ∀ i : Instr, i.wellFormed = true → decode (encode i) = .ok i

/-- The decoder is injective on legal words (R68): the command read from a word is well formed and its word is that word. -/
def Obligations.EncodeDecodeRoundTrip : Prop :=
  ∀ (w : Cmd) (i : Instr), decode w = .ok i → i.wellFormed = true ∧ encode i = w

/-- The opcode map (R64): `w & mask == match` selects exactly the words the decoder reads as that row's command. -/
def Obligations.OpcodeMapSelectsCommand : Prop :=
  ∀ w : Cmd,
    (w &&& 0xFFFF#16 = 0x1000#16 ↔ decode w = .ok .clr) ∧
    (w &&& 0xFFFF#16 = 0x2000#16 ↔ decode w = .ok .rdst) ∧
    (w &&& 0xFFFF#16 = 0x4000#16 ↔ decode w = .ok .crci) ∧
    (w &&& 0xFF00#16 = 0x5000#16 ↔ ∃ b, decode w = .ok (.crcb b)) ∧
    (w &&& 0xFFFF#16 = 0x6000#16 ↔ decode w = .ok .crcr) ∧
    (w &&& 0xFF00#16 = 0x7000#16 ↔ ∃ b, decode w = .ok (.crcv b)) ∧
    (w &&& 0xFF00#16 = 0x8000#16 ↔ ∃ b, decode w = .ok (.push b)) ∧
    (w &&& 0xFF00#16 = 0xA000#16 ↔ ∃ n m bo, decode w = .ok (.sx n m bo)) ∧
    (w &&& 0xFFF8#16 = 0xB000#16 ↔ ∃ m bo, decode w = .ok (.em m bo))

/-- Operand assembly (R67): each operand of the command read from a word, as arithmetic on the word. -/
def Obligations.OperandsTakenFromWord : Prop :=
  ∀ (w : Cmd) (i : Instr), decode w = .ok i →
    match i with
    | .crcb b | .crcv b | .push b => b.toNat = w.toNat % 256
    | .sx n m bo =>
      n = w.toNat / 8 % 32 + 1 ∧ m = w.toNat / 2 % 4 + 1 ∧ (bo = .be ↔ w.toNat % 2 = 1)
    | .em m bo => m = w.toNat / 2 % 4 + 1 ∧ (bo = .be ↔ w.toNat % 2 = 1)
    | .clr | .rdst | .crci | .crcr => True

/-- The illegal words (R68, R69): an unassigned opcode, or an assigned one with a nonzero must-be-zero field. -/
def Obligations.RejectedWordsAreTheIllegalOnes : Prop :=
  ∀ w : Cmd,
    (∃ why, decode w = .error why) ↔
      w.toNat / 4096 ∈ [0x0, 0x3, 0x9, 0xC, 0xD, 0xE, 0xF] ∨
      (w.toNat / 4096 ∈ [0x1, 0x2, 0x4, 0x6] ∧ w.toNat % 4096 ≠ 0) ∨
      (w.toNat / 4096 ∈ [0x5, 0x7, 0x8, 0xA] ∧ w.toNat / 256 % 16 ≠ 0) ∨
      (w.toNat / 4096 = 0xB ∧ w.toNat / 8 % 512 ≠ 0)

/-- The arithmetic of the assembler's table (R73) gives the word the encoder writes. -/
def Obligations.AssemblerWordIsEncoding : Prop :=
  ∀ i : Instr, i.wellFormed = true → (encode i).toNat = assemblerWord i

/-- Words written out from the encoding tables (R62, R63, R65, R66, and the examples of R73) decode to their commands: a
sanity statement. -/
def Obligations.SampleWordsDecode : Prop :=
  decode 0x1000#16 = .ok .clr ∧ decode 0x50BE#16 = .ok (.crcb 0xBE#8) ∧
  decode 0x80C0#16 = .ok (.push 0xC0#8) ∧ decode 0xA0BD#16 = .ok (.sx 24 3 .be) ∧
  decode 0xA07A#16 = .ok (.sx 16 2 .le) ∧ decode 0xB003#16 = .ok (.em 2 .be)

/-- A step runs the command the next word decodes to, the word being taken from what the host presents (R9, R48). -/
def Obligations.StepRunsDecodedCommand : Prop :=
  ∀ (s : State) (w : Cmd) (rest : List HostInput) (i : Instr),
    s.inputs = .cmd w :: rest → decode w = .ok i → step s = exec i { s with inputs := rest }

/-- ILLEGAL (R145): a word the decoder rejects is answered Fail(ILLEGAL) and changes no register, whatever the state. -/
def Obligations.IllegalWordIsAnswered : Prop :=
  ∀ (s : State) (w : Cmd) (rest : List HostInput) (why : IllegalWord),
    s.inputs = .cmd w :: rest → decode w = .error why →
    ∃ t, step s = .next t ∧ sameRegisters s t ∧ t.rsps = s.rsps ++ [.fail .illegal] ∧ t.inputs = rest

/-- Reset (R170): between two commands, every register takes its reset value (R30) and there is no response. -/
def Obligations.ResetBetweenCommands : Prop :=
  ∀ (s : State) (rest : List HostInput), s.inputs = .rst :: rest →
    ∃ t, step s = .next t ∧ t.acc = 0xFF#8 ∧ t.len = 0 ∧ (∀ i, t.bufByte i = none) ∧ t.crcErr = false ∧
      t.ovf = false ∧ t.rsps = s.rsps ∧ t.inputs = rest

/-- The step is total and the block never stops (R9, R148). The case of nothing presented rests on log entry 4: the state
persists. -/
def Obligations.StepAlwaysGoesOn : Prop :=
  ∀ s : State, ∃ t, step s = .next t ∧ (s.inputs = [] → t = s)

/-- Every command word, legal or not, gets exactly one response, after all earlier ones, and the block is ready for the
next (R8, R9, R48). -/
def Obligations.OneResponsePerCommand : Prop :=
  ∀ (s : State) (w : Cmd) (rest : List HostInput), s.inputs = .cmd w :: rest →
    ∃ t r, step s = .next t ∧ t.rsps = s.rsps ++ [r] ∧ t.inputs = rest

/-- The reset values of the registers (R30). -/
def Obligations.ResetValues : Prop :=
  State.reset.acc = 0xFF#8 ∧ State.reset.len = 0 ∧ (∀ i, State.reset.bufByte i = none) ∧
  State.reset.crcErr = false ∧ State.reset.ovf = false

/-- Reset and CLR agree (R171): from any two states, the registers after a reset are those after CLR, and are those of the
state at power-on. -/
def Obligations.ResetAndClrAgree : Prop :=
  ∀ (s u : State) (rest : List HostInput), u.inputs = .rst :: rest →
    ∃ t v, exec .clr s = .next t ∧ step u = .next v ∧ sameRegisters t v ∧ sameRegisters State.reset t

/-- CLR (R135): word 0x1000; the reset state, whatever the state before, and Ok(0); and no other command clears CRCERR or
OVF. -/
def Obligations.ClrEndsTransaction : Prop :=
  decode 0x1000#16 = .ok .clr ∧
  (∀ s : State, ∃ t, exec .clr s = .next t ∧ t.acc = 0xFF#8 ∧ t.len = 0 ∧ (∀ i, t.bufByte i = none) ∧
    t.crcErr = false ∧ t.ovf = false ∧ answeredWith s t (.ok 0#32)) ∧
  (∀ (i : Instr) (s t : State), exec i s = .next t → i ≠ .clr →
    (s.crcErr = true → t.crcErr = true) ∧ (s.ovf = true → t.ovf = true))

/-- RDST (R136, R27): word 0x2000; the response is the status image, OVF in bit 4, CRCERR in bit 3, LEN[2:0] in bits [2:0],
zeros above; nothing is written. That a LEN of 8 or more, which no run reaches, shows its low three bits is the model's
choice (log entry 6). -/
def Obligations.RdstReadsStatusImage : Prop :=
  decode 0x2000#16 = .ok .rdst ∧
  ∀ s : State, ∃ t v, exec .rdst s = .next t ∧ sameRegisters s t ∧ answeredWith s t (.ok v) ∧
    v.toNat = s.len % 8 + (if s.crcErr then 8 else 0) + (if s.ovf then 16 else 0)

/-- CRCI (R94): word 0x4000; ACC <- 0xFF, Ok(0), and nothing else is written. -/
def Obligations.CrciInitialisesAcc : Prop :=
  decode 0x4000#16 = .ok .crci ∧
  ∀ s : State, ∃ t, exec .crci s = .next t ∧ sameRegisters { s with acc := 0xFF#8 } t ∧ answeredWith s t (.ok 0#32)

/-- CRCB (R95): word 0x5000 + imm8; ACC <- crc8_byte(ACC, imm8), for every ACC and every byte, Ok(0), and nothing else is written. -/
def Obligations.CrcbStepsAcc : Prop :=
  ∀ (s : State) (b : Byte), decode (0x5000#16 + b.setWidth 16) = .ok (.crcb b) ∧
    ∃ t, exec (.crcb b) s = .next t ∧
      sameRegisters { s with acc := crc8Byte s.acc b } t ∧ answeredWith s t (.ok 0#32)

/-- CRCR (R96): word 0x6000; the response is ACC, zero-extended; nothing is written. -/
def Obligations.CrcrReadsAcc : Prop :=
  decode 0x6000#16 = .ok .crcr ∧
  ∀ s : State, ∃ t v, exec .crcr s = .next t ∧ sameRegisters s t ∧ answeredWith s t (.ok v) ∧
    v.toNat = s.acc.toNat

/-- CRCV (R97): word 0x7000 + imm8; Ok(1) on equality of all eight bits with nothing written, Ok(0) otherwise with CRCERR set and nothing else
written. -/
def Obligations.CrcvAnswersVerdict : Prop :=
  ∀ (s : State) (b : Byte), decode (0x7000#16 + b.setWidth 16) = .ok (.crcv b) ∧
    ∃ t, exec (.crcv b) s = .next t ∧
      if s.acc = b then sameRegisters s t ∧ answeredWith s t (.ok 1#32)
      else sameRegisters { s with crcErr := true } t ∧ answeredWith s t (.ok 0#32)

/-- PUSH with room (R130, R42): the byte goes unchanged to index LEN, LEN grows by one, Ok(0); every other byte and every
other register is as before. -/
def Obligations.PushAppendsAtLen : Prop :=
  ∀ (s : State) (b : Byte), s.len ≠ 4 → ∃ t, exec (.push b) s = .next t ∧
    t.bufByte s.len = some b ∧ t.len = s.len + 1 ∧ (∀ i, i ≠ s.len → t.bufByte i = s.bufByte i) ∧
    t.acc = s.acc ∧ t.crcErr = s.crcErr ∧ t.ovf = s.ovf ∧ answeredWith s t (.ok 0#32)

/-- PUSH on a full buffer (R130, R142): Fail(LENGTH), OVF set, the byte discarded, nothing else written. -/
def Obligations.PushRefusedWhenFull : Prop :=
  ∀ (s : State) (b : Byte), s.len = 4 → ∃ t, exec (.push b) s = .next t ∧
    sameRegisters { s with ovf := true } t ∧ answeredWith s t (.fail .length)

/-- BufRead (R43): with LEN = M, the sum of the bytes, each shifted by 8*i (BO = 0) or 8*(M-1-i) (BO = 1), a value of 8*M
bits; for M = 1 both orders give BUF[0]. -/
def Obligations.BufReadAssemblesBytes : Prop :=
  ∀ (s : State) (m : Nat), s.len = m → 1 ≤ m → m ≤ 4 →
    s.bufRead m .le = (∑ i ∈ Finset.range m, ((s.bufByte i).getD 0#8).toNat * 2 ^ (8 * i)) ∧
    s.bufRead m .be = (∑ i ∈ Finset.range m, ((s.bufByte i).getD 0#8).toNat * 2 ^ (8 * (m - 1 - i))) ∧
    s.bufRead m .le < 2 ^ (8 * m) ∧ s.bufRead m .be < 2 ^ (8 * m) ∧
    (m = 1 → s.bufRead m .le = s.bufRead m .be)

/-- SX, admitted (R112): Ok(v), where bit k of v is bit k of the assembled value below N and bit N-1 from N up; nothing is
written. -/
def Obligations.SxSignExtendsField : Prop :=
  ∀ (s : State) (n m : Nat) (bo : ByteOrder), 1 ≤ n → n ≤ 32 → s.ovf = false → s.len = m → s.crcErr = false →
    n ≤ 8 * m →
    ∃ t v, exec (.sx n m bo) s = .next t ∧ sameRegisters s t ∧ answeredWith s t (.ok v) ∧
      ∀ k, k < 32 → v.getLsbD k = (s.bufRead m bo).testBit (if k < n then k else n - 1)

/-- The closed form of the sign extension (R113) and its signed reading (R112): exact for every field. -/
def Obligations.SignExtensionClosedForm : Prop :=
  ∀ f n : Nat, 1 ≤ n → n ≤ 32 → f < 2 ^ n →
    (sext32 f n).toNat = (f + (if f.testBit (n - 1) then 1 else 0) * (2 ^ 32 - 2 ^ n)) % 2 ^ 32 ∧
    (sext32 f n).toInt = if f < 2 ^ (n - 1) then (f : Int) else (f : Int) - 2 ^ n

/-- EM, admitted (R116): with v the assembled register of W = 8*M bits, E its top four bits and MANT the rest, Ok of the
exact integer MANT * 2^E, bit 31 zero; nothing is written. -/
def Obligations.EmAnswersExactProduct : Prop :=
  ∀ (s : State) (m : Nat) (bo : ByteOrder), 1 ≤ m → m ≤ 2 → s.ovf = false → s.len = m → s.crcErr = false →
    ∃ t v, exec (.em m bo) s = .next t ∧ sameRegisters s t ∧ answeredWith s t (.ok v) ∧
      v.toNat = s.bufRead m bo % 2 ^ (8 * m - 4) * 2 ^ (s.bufRead m bo / 2 ^ (8 * m - 4)) ∧ v.getLsbD 31 = false

/-- EM cannot overflow (R117): MANT * 2^E is below 2^(W+11), and so below 2^32, for W = 8 and W = 16. -/
def Obligations.EmProductFits : Prop :=
  ∀ v m : Nat, 1 ≤ m → m ≤ 2 → v < 2 ^ (8 * m) →
    emMantissa v m < 2 ^ (8 * m - 4) ∧ emExponent v m ≤ 15 ∧
    emMantissa v m * 2 ^ emExponent v m < 2 ^ (8 * m + 11) ∧ 2 ^ (8 * m + 11) < 2 ^ 32

/-- Admission (R111): the three tests of SX and EM in their fixed order, the first that fails decides the response, and no
failing test writes a register. -/
def Obligations.DecodeAdmissionOrder : Prop :=
  ∀ (s : State) (i : Instr) (m : Nat) (formatOk : Prop),
    (∃ n bo, i = .sx n m bo ∧ (formatOk ↔ n ≤ 8 * m)) ∨ (∃ bo, i = .em m bo ∧ (formatOk ↔ m ≤ 2)) →
    ∃ t r, exec i s = .next t ∧ sameRegisters s t ∧ answeredWith s t r ∧
      ((s.ovf = true ∨ s.len ≠ m) → r = .fail .length) ∧
      ((s.ovf = false ∧ s.len = m) ∧ s.crcErr = true → r = .fail .checksum) ∧
      ((s.ovf = false ∧ s.len = m) ∧ s.crcErr = false ∧ ¬ formatOk → r = .fail .decode) ∧
      ((s.ovf = false ∧ s.len = m) ∧ s.crcErr = false ∧ formatOk → ∃ v, r = .ok v)

/-- Priority (R147): for one command word exactly one code is reported, ILLEGAL before LENGTH before CHECKSUM before
DECODE, and a command of which no condition holds is answered Ok. -/
def Obligations.FailurePriority : Prop :=
  ∀ (s : State) (w : Cmd) (rest : List HostInput), s.inputs = .cmd w :: rest →
    ∃ t r, step s = .next t ∧ t.rsps = s.rsps ++ [r] ∧
      match decode w with
      | .error _ => r = .fail .illegal
      | .ok (.push _) => if s.len = 4 then r = .fail .length else ∃ v, r = .ok v
      | .ok (.sx n m _) =>
        if s.ovf = true ∨ s.len ≠ m then r = .fail .length
        else if s.crcErr = true then r = .fail .checksum
        else if 8 * m < n then r = .fail .decode else ∃ v, r = .ok v
      | .ok (.em m _) =>
        if s.ovf = true ∨ s.len ≠ m then r = .fail .length
        else if s.crcErr = true then r = .fail .checksum
        else if 2 < m then r = .fail .decode else ∃ v, r = .ok v
      | .ok _ => ∃ v, r = .ok v

/-- What a failure writes (R148): a step that answers Fail changes no register, but that a refused PUSH sets OVF. -/
def Obligations.FailureWritesNothingButOvf : Prop :=
  ∀ (s t : State) (c : FailCode), step s = .next t → t.rsps = s.rsps ++ [.fail c] →
    (∀ w rest b, s.inputs = .cmd w :: rest → decode w = .ok (.push b) →
      c = .length ∧ sameRegisters { s with ovf := true } t) ∧
    ((∀ w rest b, s.inputs = .cmd w :: rest → decode w ≠ .ok (.push b)) → sameRegisters s t)

/-- TRANSPORT is never produced (R151), whatever is presented: no step adds a Fail(TRANSPORT) to the responses. -/
def Obligations.TransportNeverRaised : Prop :=
  ∀ s t : State, step s = .next t → t.rsps.count (.fail .transport) = s.rsps.count (.fail .transport)

/-- The response status numbers (R72): 0 exactly for Ok, never 6 or 7, and a value exactly when the status is 0. -/
def Obligations.StatusNumbers : Prop :=
  (∀ r : Response, (r.status = 0#3 ↔ ∃ v, r = .ok v) ∧ r.status ≠ 6#3 ∧ r.status ≠ 7#3 ∧
    (r.value?.isSome = true ↔ r.status = 0#3)) ∧
  (Response.fail .transport).status = 1#3 ∧ (Response.fail .length).status = 2#3 ∧
  (Response.fail .checksum).status = 3#3 ∧ (Response.fail .decode).status = 4#3 ∧
  (Response.fail .illegal).status = 5#3

/-- SX and EM are pure (R119): they write no register, and their response is a function of BUF, CRCERR, OVF and the command
alone, so ACC does not influence it and a repetition gives the same. -/
def Obligations.DecodesArePure : Prop :=
  ∀ (i : Instr) (s s' : State), i.isDecode = true → s'.buf = s.buf → s'.crcErr = s.crcErr → s'.ovf = s.ovf →
    ∃ t t' r, exec i s = .next t ∧ exec i s' = .next t' ∧ sameRegisters s t ∧
      answeredWith s t r ∧ answeredWith s' t' r ∧ ∃ u, exec i t = .next u ∧ answeredWith t u r

/-- The write sets (R31): every register outside a command's row is untouched, and no command takes from the host. -/
def Obligations.CommandWriteSets : Prop :=
  ∀ (i : Instr) (s t : State), exec i s = .next t →
    (i.mnemonic ∉ [.CLR, .CRCI, .CRCB] → t.acc = s.acc) ∧
    (i.mnemonic ∉ [.CLR, .PUSH] → t.len = s.len ∧ ∀ k, t.bufByte k = s.bufByte k) ∧
    (i.mnemonic ∉ [.CLR, .CRCV] → t.crcErr = s.crcErr) ∧
    (i.mnemonic ∉ [.CLR, .PUSH] → t.ovf = s.ovf) ∧
    (i.mnemonic = .CRCV → s.crcErr = true → t.crcErr = true) ∧
    (i.mnemonic = .PUSH → s.ovf = true → t.ovf = true) ∧
    t.inputs = s.inputs

/-- CRCERR over every step (R25): it is 1 afterwards exactly when the step was no CLR and no reset and it was 1 before or the
step was a CRCV whose comparison failed. -/
def Obligations.CrcErrSetAndCleared : Prop :=
  ∀ s t : State, step s = .next t →
    (t.crcErr = true ↔
      (∀ rest, s.inputs ≠ .rst :: rest) ∧
      (∀ w rest, s.inputs = .cmd w :: rest → decode w ≠ .ok .clr) ∧
      (s.crcErr = true ∨ ∃ w rest b, s.inputs = .cmd w :: rest ∧ decode w = .ok (.crcv b) ∧ s.acc ≠ b))

/-- OVF over every step (R26): it is 1 afterwards exactly when the step was no CLR and no reset and it was 1 before or the
step was a PUSH with LEN = 4. -/
def Obligations.OvfSetAndCleared : Prop :=
  ∀ s t : State, step s = .next t →
    (t.ovf = true ↔
      (∀ rest, s.inputs ≠ .rst :: rest) ∧
      (∀ w rest, s.inputs = .cmd w :: rest → decode w ≠ .ok .clr) ∧
      (s.ovf = true ∨ ∃ w rest b, s.inputs = .cmd w :: rest ∧ decode w = .ok (.push b) ∧ s.len = 4))

/-- BUF over every step (R24): a step leaves BUF as it is, or appends the byte of a PUSH with room, or empties it by CLR or
reset; no step removes or overwrites a single byte. -/
def Obligations.BufferGrowsOrEmpties : Prop :=
  ∀ s t : State, step s = .next t →
    (t.buf = s.buf) ∨
    (∃ w rest b, s.inputs = .cmd w :: rest ∧ decode w = .ok (.push b) ∧ s.len ≠ 4 ∧ t.buf = s.buf ++ [b]) ∨
    (t.buf = [] ∧ ((∃ rest, s.inputs = .rst :: rest) ∨ ∃ w rest, s.inputs = .cmd w :: rest ∧ decode w = .ok .clr))

/-- The invariant holds at reset (R29). -/
def Obligations.InvariantAtReset : Prop := State.reset.Inv

/-- Every step keeps the invariant of R29 (BUF in its canonical form of at most 4 bytes, and OVF = 1 only with LEN = 4), from
every state that meets it, whatever the host presents. -/
def Obligations.StepKeepsInvariant : Prop :=
  ∀ s t : State, s.Inv → step s = .next t → t.Inv

/-- R29 as the rule says it: from the reset state, every state reached by any command list satisfies 0 <= LEN <= 4, and
OVF = 1 implies LEN = 4. -/
def Obligations.ReachableStatesMeetInvariant : Prop :=
  ∀ (ws : List Cmd) (t : State), runWords ws State.reset = .next t → t.len ≤ 4 ∧ (t.ovf = true → t.len = 4)

/-- No hidden state (R28): two states that meet the invariant and answer CRCR and RDST alike have equal ACC, LEN, CRCERR and
OVF; if moreover both flags are 0 and they answer alike to SX with M = LEN and N = 8*M, their buffers are equal. -/
def Obligations.StateIsObservable : Prop :=
  ∀ s s' : State, s.Inv → s'.Inv → s.rsps = s'.rsps →
    lastResponse (exec .crcr s) = lastResponse (exec .crcr s') →
    lastResponse (exec .rdst s) = lastResponse (exec .rdst s') →
    (s.acc = s'.acc ∧ s.len = s'.len ∧ s.crcErr = s'.crcErr ∧ s.ovf = s'.ovf) ∧
    (s.crcErr = false → s.ovf = false →
      lastResponse (exec (.sx (8 * s.len) s.len .le) s) = lastResponse (exec (.sx (8 * s.len) s.len .le) s') →
      s.buf = s'.buf)

/-- The bit step (R91), as arithmetic: the top bit is tested before the shift, the shift truncates to a byte, and 0x31 is
XORed in after it. -/
def Obligations.CrcBitStepArithmetic : Prop :=
  ∀ a : Byte, (crc8Bit a).toNat = if 128 ≤ a.toNat then (2 * a.toNat % 256) ^^^ 0x31 else 2 * a.toNat

/-- The table form (R93): the byte step is the table at the XOR of its arguments, and the table is a linear permutation
that sends only 0 to 0. -/
def Obligations.CrcTableForm : Prop :=
  (∀ a d : Byte, crc8Byte a d = crc8Table (a ^^^ d)) ∧ Function.Bijective crc8Table ∧
  (∀ b : Byte, crc8Table b = 0#8 ↔ b = 0#8) ∧
  (∀ a b : Byte, crc8Table (a ^^^ b) = crc8Table a ^^^ crc8Table b)

/-- The byte step is multiplication by x^8 modulo x^8 + x^5 + x^4 + 1 (R4, R93): the carry-less remainder of (a XOR d)
times 256 by the nine-bit divisor 0x131, in the sense that the two differ by a carry-less multiple of the divisor. -/
def Obligations.CrcByteIsPolynomialRemainder : Prop :=
  ∀ a d : Byte, ∃ q : Byte,
    (crc8Byte a d).toNat =
      ((a ^^^ d).toNat <<< 8) ^^^
        ((List.range 8).foldl (fun acc k => if q.getLsbD k then acc ^^^ (0x131 <<< k) else acc) 0)

/-- Round trip (R100): a sequence verifies against its own CRC; in commands, a CRCV of the value CRCR has just returned
answers Ok(1) and leaves CRCERR as it was. -/
def Obligations.VerifyRoundTrip : Prop :=
  (∀ d : List Byte, verifyCrc8 d (computeCrc8 d) = true) ∧
  ∀ (s t : State) (v : Word), exec .crcr s = .next t → answeredWith s t (.ok v) →
    ∃ u, exec (.crcv (v.setWidth 8)) t = .next u ∧ answeredWith t u (.ok 1#32) ∧ u.crcErr = s.crcErr

/-- Zero residue (R101): feeding the trailing CRC byte as well leaves zero exactly when it is the CRC of the data. -/
def Obligations.ZeroResidue : Prop :=
  ∀ (d : List Byte) (c : Byte), crc8Fold 0xFF#8 (d ++ [c]) = 0x00#8 ↔ c = computeCrc8 d

/-- Error sensitivity (R102): the CRC of `d ^ e` is that of `d` XOR a value that depends on `e` alone, and flipping any
single bit, at any place in a sequence of any length, changes the CRC. -/
def Obligations.SingleBitErrorsDetected : Prop :=
  (∀ d e : List Byte, d.length = e.length →
    computeCrc8 (List.zipWith (fun x y => x ^^^ y) d e) = computeCrc8 d ^^^ crc8Fold 0x00#8 e) ∧
  ∀ (before after : List Byte) (b : Byte) (k : Nat), k < 8 →
    computeCrc8 (before ++ (b ^^^ (1#8 <<< k)) :: after) ≠ computeCrc8 (before ++ b :: after)

/-- The whole-sequence function in commands (R98): the CRC8 macro, from any state, leaves ACC and the last response equal
to the CRC of its data, whatever ACC held; the empty sequence gives 0xFF; and the fold splits at any place. -/
def Obligations.CrcMacroComputesCrc : Prop :=
  computeCrc8 [] = 0xFF#8 ∧
  (∀ (s : State) (data : List Byte), ∃ t, execAll (macroCrc8 data) s = .next t ∧ t.acc = computeCrc8 data ∧
    t.rsps.getLast? = some (.ok ((computeCrc8 data).setWidth 32))) ∧
  (∀ (a : Byte) (x y : List Byte), crc8Fold a (x ++ y) = crc8Fold (crc8Fold a x) y)

/-- A CRC may be computed across other commands (R98): over any commands without CLR and CRCI, ACC is folded over exactly
the bytes of the CRCB commands, in order. -/
def Obligations.CrcAcrossOtherCommands : Prop :=
  ∀ (is : List Instr) (s : State), (∀ i ∈ is, i.startsOver = false) →
    ∃ t, execAll is s = .next t ∧ t.acc = crc8Fold s.acc (checkedBytes is)

/-- Verification in commands (R99, R74): the VCRC8 macro, from any state, answers the verdict of VerifyCrc8 in its last
response and sets CRCERR exactly when that is false. -/
def Obligations.VerifyMacroGivesVerdict : Prop :=
  ∀ (s : State) (data : List Byte) (e : Byte), ∃ t, execAll (macroVcrc8 data e) s = .next t ∧
    t.rsps.getLast? = some (.ok (if verifyCrc8 data e then 1#32 else 0#32)) ∧
    t.crcErr = (s.crcErr || !verifyCrc8 data e)

/-- The LOADV macro (R74, R99): from any state, the data is in BUF in order, ACC is its CRC, and CRCERR is 0 exactly when
data and CRC byte form a valid frame; none of its commands fails. -/
def Obligations.LoadvLoadsAndChecks : Prop :=
  ∀ (s : State) (data : List Byte) (c : Byte), 1 ≤ data.length → data.length ≤ 4 →
    ∃ t, execAll (macroLoadv data c) s = .next t ∧ t.buf = data ∧ t.acc = computeCrc8 data ∧ t.ovf = false ∧
      (t.crcErr = false ↔ validFrame (data ++ [c]) = true) ∧ ∃ rs, t.rsps = s.rsps ++ rs ∧ noFailure rs = true

/-- CRCERR sums up every verdict of a transaction (R25, R97, R99): after CLR and any commands without a second CLR, it is 0
exactly when each CRCV's byte was the CRC of the bytes fed since the CLR or CRCI before it. -/
def Obligations.CrcErrSumsUpVerdicts : Prop :=
  ∀ (is : List Instr) (s : State), (∀ i ∈ is, i ≠ .clr) →
    ∃ t, execAll (.clr :: is) s = .next t ∧
      (t.crcErr = false ↔ ∀ p ∈ verdicts [] is, verifyCrc8 p.1 p.2 = true)

/-- The two invariants of the source, held by the block itself (R2 (5), R25, R26, with the host duties R175, R177, R178 as
premises in the model's reading of them, log entry 17): in a transaction that begins with CLR and feeds the
same bytes to PUSH and to CRCB before its CRCV, a decode that answers a value had BUF equal to those bytes, as many as it
declares, and their CRC was the one expected. This is for one word, with no CRCI in it; for frames of several words see
`DutifulDecodeReadsVerifiedWords`. -/
def Obligations.NoValueFromBadData : Prop :=
  ∀ (s t : State) (before after : List Instr) (c : Byte) (d : Instr) (v : Word),
    (∀ i ∈ before, i.startsOver = false) → pushedBytes before = checkedBytes before →
    (∀ i ∈ after, i ≠ .clr ∧ ∀ b, i ≠ .push b) → d.isDecode = true →
    execAll (.clr :: before ++ .crcv c :: after) s = .next t →
    lastResponse (exec d t) = some (.ok v) →
    t.buf = pushedBytes before ∧ verifyCrc8 (pushedBytes before) c = true ∧
    match d with
    | .sx n m _ => (pushedBytes before).length = m ∧ n ≤ 8 * m
    | .em m _ => (pushedBytes before).length = m ∧ m ≤ 2
    | _ => False

/-- The same for frames of several words, each with its own CRC (R2 (5), R25, R176, with the host duties R175 to R178 in the
model's reading of them, log entry 17, as premises): from the reset state, which is also the state after CLR, in a
transaction that keeps the duties with every byte carrying a CRC, whatever it does after the decode, a decode that answers a
value had BUF equal to the bytes pushed before it, and these begin a sequence of words each of which had been verified before
it with a right CRC byte; where the decode ends the transaction, they are all of that sequence. -/
def Obligations.DutifulDecodeReadsVerifiedWords : Prop :=
  ∀ (s t : State) (is : List Instr) (d : Instr) (rest : List HostEvent) (v : Word),
    sameRegisters State.reset s → (∀ i ∈ is, i ≠ .clr) →
    keepsHostDuties true (fun _ => true) (is.map .command ++ .command d :: rest) = true → d.isDecode = true →
    execAll is s = .next t → lastResponse (exec d t) = some (.ok v) →
    t.buf = pushedBytes is ∧
    ∃ words : List (List Byte), t.buf <+: words.flatten ∧ (rest = [] → words.flatten = t.buf) ∧
      ∀ w ∈ words, ∃ c, (w, c) ∈ verdicts [] is ∧ verifyCrc8 w c = true

/-- A forgotten CLR is caught (R175): with bytes of an earlier transaction still in BUF, pushing the bytes of a new one and
decoding at the new one's length fails with LENGTH. -/
def Obligations.StaleBufferIsCaught : Prop :=
  ∀ (s : State) (data : List Byte) (n : Nat) (bo : ByteOrder), s.Inv → 1 ≤ s.len → 1 ≤ data.length →
    ∃ t u, execAll (data.map .push) s = .next t ∧ exec (.sx n data.length bo) t = .next u ∧
      answeredWith t u (.fail .length)

/-- A run (R9): over any list of command words, legal or not, the block goes on to the end and gives one response per
word; the words are all taken. -/
def Obligations.RunGivesOneResponsePerWord : Prop :=
  ∀ (ws : List Cmd) (s : State), ∃ t, runWords ws s = .next t ∧ t.inputs = [] ∧
    ∃ rs, t.rsps = s.rsps ++ rs ∧ rs.length = ws.length

/-- Words and commands agree (R9, R48, R68): running the words of any well-formed commands is executing the commands in
order. -/
def Obligations.RunOfWordsIsRunOfCommands : Prop :=
  ∀ (is : List Instr) (s : State), (∀ i ∈ is, i.wellFormed = true) →
    runWords (is.map encode) s = execAll is { s with inputs := [] }
end

