-- ==== Sys2Proof/Laws/State.lean ====
section
/-! SUPPORT. One lemma per field per update of the state, so that no proof unfolds a record update. -/

namespace Sys2Proof.Machine

@[simp] theorem State.respond_acc (r : Response) (s : State) :
    (s.respond r).acc = s.acc := rfl
@[simp] theorem State.respond_buf (r : Response) (s : State) :
    (s.respond r).buf = s.buf := rfl
@[simp] theorem State.respond_crcErr (r : Response) (s : State) :
    (s.respond r).crcErr = s.crcErr := rfl
@[simp] theorem State.respond_ovf (r : Response) (s : State) :
    (s.respond r).ovf = s.ovf := rfl
@[simp] theorem State.respond_inputs (r : Response) (s : State) :
    (s.respond r).inputs = s.inputs := rfl
@[simp] theorem State.respond_rsps (r : Response) (s : State) :
    (s.respond r).rsps = s.rsps ++ [r] := rfl

@[simp] theorem State.setAcc_acc (v : Byte) (s : State) :
    (s.setAcc v).acc = v := rfl
@[simp] theorem State.setAcc_buf (v : Byte) (s : State) :
    (s.setAcc v).buf = s.buf := rfl
@[simp] theorem State.setAcc_crcErr (v : Byte) (s : State) :
    (s.setAcc v).crcErr = s.crcErr := rfl
@[simp] theorem State.setAcc_ovf (v : Byte) (s : State) :
    (s.setAcc v).ovf = s.ovf := rfl
@[simp] theorem State.setAcc_inputs (v : Byte) (s : State) :
    (s.setAcc v).inputs = s.inputs := rfl
@[simp] theorem State.setAcc_rsps (v : Byte) (s : State) :
    (s.setAcc v).rsps = s.rsps := rfl

@[simp] theorem State.bufAppend_acc (b : Byte) (s : State) :
    (s.bufAppend b).acc = s.acc := rfl
@[simp] theorem State.bufAppend_buf (b : Byte) (s : State) :
    (s.bufAppend b).buf = s.buf ++ [b] := rfl
@[simp] theorem State.bufAppend_crcErr (b : Byte) (s : State) :
    (s.bufAppend b).crcErr = s.crcErr := rfl
@[simp] theorem State.bufAppend_ovf (b : Byte) (s : State) :
    (s.bufAppend b).ovf = s.ovf := rfl
@[simp] theorem State.bufAppend_inputs (b : Byte) (s : State) :
    (s.bufAppend b).inputs = s.inputs := rfl
@[simp] theorem State.bufAppend_rsps (b : Byte) (s : State) :
    (s.bufAppend b).rsps = s.rsps := rfl

@[simp] theorem State.resetRegisters_acc (s : State) :
    s.resetRegisters.acc = Config.init := rfl
@[simp] theorem State.resetRegisters_buf (s : State) :
    s.resetRegisters.buf = [] := rfl
@[simp] theorem State.resetRegisters_crcErr (s : State) :
    s.resetRegisters.crcErr = false := rfl
@[simp] theorem State.resetRegisters_ovf (s : State) :
    s.resetRegisters.ovf = false := rfl
@[simp] theorem State.resetRegisters_inputs (s : State) :
    s.resetRegisters.inputs = s.inputs := rfl
@[simp] theorem State.resetRegisters_rsps (s : State) :
    s.resetRegisters.rsps = s.rsps := rfl

@[simp] theorem State.presentWord_acc (w : Cmd) (s : State) :
    (s.presentWord w).acc = s.acc := rfl
@[simp] theorem State.presentWord_buf (w : Cmd) (s : State) :
    (s.presentWord w).buf = s.buf := rfl
@[simp] theorem State.presentWord_crcErr (w : Cmd) (s : State) :
    (s.presentWord w).crcErr = s.crcErr := rfl
@[simp] theorem State.presentWord_ovf (w : Cmd) (s : State) :
    (s.presentWord w).ovf = s.ovf := rfl
@[simp] theorem State.presentWord_inputs (w : Cmd) (s : State) :
    (s.presentWord w).inputs = .cmd w :: s.inputs := rfl
@[simp] theorem State.presentWord_rsps (w : Cmd) (s : State) :
    (s.presentWord w).rsps = s.rsps := rfl

@[simp] theorem State.presentAll_acc (ws : List Cmd) (s : State) :
    (s.presentAll ws).acc = s.acc := rfl
@[simp] theorem State.presentAll_buf (ws : List Cmd) (s : State) :
    (s.presentAll ws).buf = s.buf := rfl
@[simp] theorem State.presentAll_crcErr (ws : List Cmd) (s : State) :
    (s.presentAll ws).crcErr = s.crcErr := rfl
@[simp] theorem State.presentAll_ovf (ws : List Cmd) (s : State) :
    (s.presentAll ws).ovf = s.ovf := rfl
@[simp] theorem State.presentAll_inputs (ws : List Cmd) (s : State) :
    (s.presentAll ws).inputs = ws.map .cmd := rfl
@[simp] theorem State.presentAll_rsps (ws : List Cmd) (s : State) :
    (s.presentAll ws).rsps = s.rsps := rfl

@[simp] theorem State.raiseCrcErr_acc (s : State) :
    s.raiseCrcErr.acc = s.acc := rfl
@[simp] theorem State.raiseCrcErr_buf (s : State) :
    s.raiseCrcErr.buf = s.buf := rfl
@[simp] theorem State.raiseCrcErr_crcErr (s : State) :
    s.raiseCrcErr.crcErr = true := rfl
@[simp] theorem State.raiseCrcErr_ovf (s : State) :
    s.raiseCrcErr.ovf = s.ovf := rfl
@[simp] theorem State.raiseCrcErr_inputs (s : State) :
    s.raiseCrcErr.inputs = s.inputs := rfl
@[simp] theorem State.raiseCrcErr_rsps (s : State) :
    s.raiseCrcErr.rsps = s.rsps := rfl

@[simp] theorem State.raiseOvf_acc (s : State) :
    s.raiseOvf.acc = s.acc := rfl
@[simp] theorem State.raiseOvf_buf (s : State) :
    s.raiseOvf.buf = s.buf := rfl
@[simp] theorem State.raiseOvf_crcErr (s : State) :
    s.raiseOvf.crcErr = s.crcErr := rfl
@[simp] theorem State.raiseOvf_ovf (s : State) :
    s.raiseOvf.ovf = true := rfl
@[simp] theorem State.raiseOvf_inputs (s : State) :
    s.raiseOvf.inputs = s.inputs := rfl
@[simp] theorem State.raiseOvf_rsps (s : State) :
    s.raiseOvf.rsps = s.rsps := rfl

@[simp] theorem State.respond_len (r : Response) (s : State) :
    (s.respond r).len = s.len := rfl
@[simp] theorem State.respond_bufByte (r : Response) (s : State) (i : Nat) :
    (s.respond r).bufByte i = s.bufByte i := rfl
@[simp] theorem State.setAcc_len (v : Byte) (s : State) :
    (s.setAcc v).len = s.len := rfl
@[simp] theorem State.setAcc_bufByte (v : Byte) (s : State) (i : Nat) :
    (s.setAcc v).bufByte i = s.bufByte i := rfl
@[simp] theorem State.presentWord_len (w : Cmd) (s : State) :
    (s.presentWord w).len = s.len := rfl
@[simp] theorem State.presentWord_bufByte (w : Cmd) (s : State) (i : Nat) :
    (s.presentWord w).bufByte i = s.bufByte i := rfl
@[simp] theorem State.presentAll_len (ws : List Cmd) (s : State) :
    (s.presentAll ws).len = s.len := rfl
@[simp] theorem State.presentAll_bufByte (ws : List Cmd) (s : State) (i : Nat) :
    (s.presentAll ws).bufByte i = s.bufByte i := rfl
@[simp] theorem State.raiseCrcErr_len (s : State) :
    s.raiseCrcErr.len = s.len := rfl
@[simp] theorem State.raiseCrcErr_bufByte (s : State) (i : Nat) :
    s.raiseCrcErr.bufByte i = s.bufByte i := rfl
@[simp] theorem State.raiseOvf_len (s : State) :
    s.raiseOvf.len = s.len := rfl
@[simp] theorem State.raiseOvf_bufByte (s : State) (i : Nat) :
    s.raiseOvf.bufByte i = s.bufByte i := rfl
@[simp] theorem State.resetRegisters_len (s : State) : s.resetRegisters.len = 0 := rfl
@[simp] theorem State.resetRegisters_bufByte (s : State) (i : Nat) :
    s.resetRegisters.bufByte i = none := rfl
@[simp] theorem State.bufAppend_len (b : Byte) (s : State) : (s.bufAppend b).len = s.len + 1 := by
  simp [State.len]

end Sys2Proof.Machine
end

