-- ==== Sys2Proof/Laws/Ops.lean ====
section
/-! SUPPORT. One lemma per shared operation that says everything it can do, for the provers to cite. -/

namespace Sys2Proof.Machine

/-- `takeInput` answers none exactly when nothing is presented. -/
theorem State.takeInput_eq_none {s : State} : s.takeInput = none ↔ s.inputs = [] := by
  unfold State.takeInput
  split <;> simp_all

/-- `takeInput` removes the oldest input and touches nothing else. -/
theorem State.takeInput_eq_some {s t : State} {x : HostInput} :
    s.takeInput = some (x, t) ↔ ∃ rest, s.inputs = x :: rest ∧ t = { s with inputs := rest } := by
  unfold State.takeInput
  split
  · rename_i h
    simp [h]
  · rename_i y rest h
    constructor
    · intro e
      cases e
      exact ⟨rest, h, rfl⟩
    · rintro ⟨rest', h', rfl⟩
      rw [h] at h'
      cases h'
      rfl

theorem State.takeInput_cons {s : State} {x : HostInput} {rest : List HostInput}
    (h : s.inputs = x :: rest) : s.takeInput = some (x, { s with inputs := rest }) :=
  State.takeInput_eq_some.mpr ⟨rest, h, rfl⟩

@[simp] theorem answerOk_eq (v : Word) (s : State) : answerOk v s = .next (s.respond (.ok v)) := rfl

@[simp] theorem answerFail_eq (c : FailCode) (s : State) :
    answerFail c s = .next (s.respond (.fail c)) := rfl

@[simp] theorem answerIdle_eq (s : State) : answerIdle s = .next s := rfl

@[simp] theorem answerReset_eq (s : State) : answerReset s = .next s.resetRegisters := rfl

@[simp] theorem answerIllegal_eq (why : IllegalWord) (s : State) :
    answerIllegal why s = .next (s.respond (.fail .illegal)) := rfl

/-- Whatever the response, it is appended and nothing else changes. -/
@[simp] theorem answer_eq (r : Response) (s : State) : answer r s = .next (s.respond r) := by
  cases r <;> rfl

/-- The read of BUF after `BufAppend`: the new byte at index LEN, every other index as before. -/
theorem State.bufAppend_bufByte (b : Byte) (s : State) (i : Nat) :
    (s.bufAppend b).bufByte i = if i = s.len then some b else s.bufByte i := by
  simp only [State.bufByte, State.bufAppend_buf, State.len, List.getElem?_append, List.getElem?_singleton]
  by_cases hlt : i < s.buf.length
  · simp [hlt, Nat.ne_of_lt hlt]
  · by_cases heq : i = s.buf.length
    · simp [heq]
    · have : i - s.buf.length ≠ 0 := by omega
      simp [hlt, heq, this]

/-- An index holds a byte exactly when it is below LEN. -/
theorem State.bufByte_eq_none {s : State} {i : Nat} : s.bufByte i = none ↔ s.len ≤ i := by
  simp [State.bufByte, State.len]

theorem Memory.wf_iff {mem : Memory} : Memory.wf mem = true ↔ mem.length ≤ 4 :=
  decide_eq_true_iff

/-- The empty buffer is canonical. -/
theorem Memory.wf_empty : Memory.wf [] = true := rfl

/-- Every register update but `BufAppend` keeps the buffer's canonical form. -/
theorem State.wf_of_buf_eq {s t : State} (h : t.buf = s.buf) (hw : Memory.wf s.buf = true) :
    Memory.wf t.buf = true := by
  rw [h]; exact hw

/-- `BufAppend` keeps the buffer's canonical form under its precondition LEN < 4 (R42). -/
theorem State.bufAppend_wf {b : Byte} {s : State} (h : s.len < 4) :
    Memory.wf (s.bufAppend b).buf = true := by
  rw [Memory.wf_iff, State.bufAppend_buf, List.length_append]
  exact h

/-- Emptying the buffer gives its canonical form. -/
theorem State.resetRegisters_wf (s : State) : Memory.wf s.resetRegisters.buf = true := rfl

/-- The four answers of the admission tests, each with exactly the conditions it stands for (R111). -/
theorem State.decodeAdmit_cases (s : State) (m : Nat) (ok : Bool) :
    (s.decodeAdmit m ok = some .length ∧ (s.ovf = true ∨ s.len ≠ m)) ∨
    (s.decodeAdmit m ok = some .checksum ∧ s.ovf = false ∧ s.len = m ∧ s.crcErr = true) ∨
    (s.decodeAdmit m ok = some .decode ∧ s.ovf = false ∧ s.len = m ∧ s.crcErr = false ∧ ok = false) ∨
    (s.decodeAdmit m ok = none ∧ s.ovf = false ∧ s.len = m ∧ s.crcErr = false ∧ ok = true) := by
  unfold State.decodeAdmit
  by_cases h1 : s.ovf = true ∨ s.len ≠ m
  · exact .inl ⟨by simp [h1], h1⟩
  · obtain ⟨ho, hl⟩ := not_or.mp h1
    rw [Bool.not_eq_true] at ho
    rw [not_not] at hl
    cases hc : s.crcErr <;> cases ok <;> simp [ho, hl]

/-- A decode is admitted exactly when none of the three tests fails (R111). -/
theorem State.decodeAdmit_eq_none {s : State} {m : Nat} {ok : Bool} :
    s.decodeAdmit m ok = none ↔ s.ovf = false ∧ s.len = m ∧ s.crcErr = false ∧ ok = true := by
  constructor
  · intro h
    rcases s.decodeAdmit_cases m ok with ⟨e, _⟩ | ⟨e, _⟩ | ⟨e, _⟩ | ⟨_, h'⟩
    · simp [h] at e
    · simp [h] at e
    · simp [h] at e
    · exact h'
  · rintro ⟨ho, hl, hc, hk⟩
    simp [State.decodeAdmit, ho, hl, hc, hk]

theorem sxFormatOk_iff {n m : Nat} : sxFormatOk n m = true ↔ n ≤ 8 * m := decide_eq_true_iff

theorem emFormatOk_iff {m : Nat} : emFormatOk m = true ↔ m ≤ 2 := decide_eq_true_iff

/-- A decode reads BUF alone: two states with the same BUF give the same value (R119). -/
theorem State.bufRead_congr {s t : State} (h : t.buf = s.buf) (m : Nat) (bo : ByteOrder) :
    t.bufRead m bo = s.bufRead m bo := by
  simp [State.bufRead, h]

/-- A buffer of a length from 1 to 4, byte by byte. -/
theorem State.buf_of_len {s : State} {m : Nat} (hl : s.len = m) (h1 : 1 ≤ m) (h4 : m ≤ 4) :
    (∃ a, m = 1 ∧ s.buf = [a]) ∨ (∃ a b, m = 2 ∧ s.buf = [a, b]) ∨ (∃ a b c, m = 3 ∧ s.buf = [a, b, c]) ∨
    (∃ a b c d, m = 4 ∧ s.buf = [a, b, c, d]) := by
  simp only [State.len] at hl
  rcases hb : s.buf with _ | ⟨a, _ | ⟨b, _ | ⟨c, _ | ⟨d, _ | ⟨e, r⟩⟩⟩⟩⟩ <;> simp [hb] at hl <;> simp [hl.symm]
  all_goals omega

/-- Bytes from index `k` on, each shifted by eight bits per index, are the digits of a number in base 256. -/
theorem leSum_eq_ofDigits (l : List Byte) (k : Nat) :
    ((l.zipIdx k).map fun p => p.1.toNat <<< byteShift 0 .le p.2).sum =
      256 ^ k * Nat.ofDigits 256 (l.map BitVec.toNat) := by
  induction l generalizing k with
  | nil => rfl
  | cons b rest ih =>
    rw [List.zipIdx_cons, List.map_cons, List.sum_cons, ih, List.map_cons, Nat.ofDigits_cons,
      Nat.shiftLeft_eq, byteShift, Nat.pow_mul, pow_succ]
    norm_num
    ring

/-- The same with the index counted down from the last byte: the digits reversed. -/
theorem beSum_eq_ofDigits (l : List Byte) (k m : Nat) (hm : m = k + l.length) :
    ((l.zipIdx k).map fun p => p.1.toNat <<< byteShift m .be p.2).sum =
      Nat.ofDigits 256 (l.reverse.map BitVec.toNat) := by
  induction l generalizing k with
  | nil => rfl
  | cons b rest ih =>
    have hlen : m - 1 - k = rest.length := by rw [hm, List.length_cons]; omega
    rw [List.zipIdx_cons, List.map_cons, List.sum_cons, ih (k + 1) (by rw [hm, List.length_cons]; omega),
      List.reverse_cons, List.map_append, Nat.ofDigits_append, Nat.shiftLeft_eq, byteShift, hlen, Nat.pow_mul]
    simp
    ring

/-- `BufRead` with BO = 0: BUF[0] is the least significant digit in base 256 (R43). -/
theorem State.bufRead_le (s : State) (m : Nat) :
    s.bufRead m .le = Nat.ofDigits 256 (s.buf.map BitVec.toNat) :=
  (leSum_eq_ofDigits s.buf 0).trans (Nat.one_mul _)

/-- `BufRead` with BO = 1, for LEN = M: BUF[0] is the most significant digit in base 256 (R43). -/
theorem State.bufRead_be {s : State} {m : Nat} (hl : s.len = m) :
    s.bufRead m .be = Nat.ofDigits 256 (s.buf.reverse.map BitVec.toNat) :=
  beSum_eq_ofDigits s.buf 0 m (by rw [← hl, State.len, Nat.zero_add])

/-- `BufRead` gives a value of 8*M bits (R43). -/
theorem State.bufRead_lt {s : State} {m : Nat} (hl : s.len = m) (bo : ByteOrder) :
    s.bufRead m bo < 256 ^ m := by
  have digit : ∀ (l : List Byte), ∀ x ∈ l.map BitVec.toNat, x < 256 := by
    intro l x hx
    obtain ⟨b, -, rfl⟩ := List.mem_map.mp hx
    exact b.isLt
  subst hl
  cases bo with
  | le => rw [State.bufRead_le]; simpa [State.len] using Nat.ofDigits_lt_base_pow_length (by norm_num) (digit s.buf)
  | be =>
    rw [State.bufRead_be rfl]
    simpa [State.len] using Nat.ofDigits_lt_base_pow_length (by norm_num) (digit s.buf.reverse)

/-- The byte step depends on its two arguments through their XOR alone (R93). -/
theorem crc8Byte_eq_of_xor {a d a' d' : Byte} (h : a ^^^ d = a' ^^^ d') : crc8Byte a d = crc8Byte a' d' := by
  simp [crc8Byte, h]

@[simp] theorem crc8Fold_nil (a : Byte) : crc8Fold a [] = a := rfl

@[simp] theorem crc8Fold_cons (a d : Byte) (rest : List Byte) :
    crc8Fold a (d :: rest) = crc8Fold (crc8Byte a d) rest := rfl

end Sys2Proof.Machine
end

