-- ==== Sys2Proof/Laws/Exec.lean ====
section
/-! SUPPORT. What executing a command can do to the registers, said once per command as an equation (the provers cite
these and never unfold a meaning). -/

namespace Sys2Proof.Machine

theorem exec_clr (s : State) : exec .clr s = .next (s.resetRegisters.respond (.ok 0#32)) := rfl

theorem exec_rdst (s : State) : exec .rdst s = .next (s.respond (.ok s.statusImage)) := rfl

theorem exec_crci (s : State) : exec .crci s = .next ((s.setAcc Config.init).respond (.ok 0#32)) := rfl

theorem exec_crcb (b : Byte) (s : State) :
    exec (.crcb b) s = .next ((s.setAcc (crc8Byte s.acc b)).respond (.ok 0#32)) := rfl

theorem exec_crcr (s : State) : exec .crcr s = .next (s.respond (.ok (s.acc.setWidth 32))) := rfl

theorem exec_crcv_match {b : Byte} {s : State} (h : s.acc = b) :
    exec (.crcv b) s = .next (s.respond (.ok 1#32)) := by
  simp [exec, execCrcv, h]

theorem exec_crcv_mismatch {b : Byte} {s : State} (h : s.acc ≠ b) :
    exec (.crcv b) s = .next (s.raiseCrcErr.respond (.ok 0#32)) := by
  simp [exec, execCrcv, h]

theorem exec_push_full {b : Byte} {s : State} (h : s.len = 4) :
    exec (.push b) s = .next (s.raiseOvf.respond (.fail .length)) := by
  simp [exec, execPush, h, Config.bufcap]

theorem exec_push_room {b : Byte} {s : State} (h : s.len ≠ 4) :
    exec (.push b) s = .next ((s.bufAppend b).respond (.ok 0#32)) := by
  simp [exec, execPush, h, Config.bufcap]

theorem exec_sx (n m : Nat) (bo : ByteOrder) (s : State) :
    exec (.sx n m bo) s = .next (s.respond (s.sxResponse n m bo)) := by
  simp [exec, execSx]

theorem exec_em (m : Nat) (bo : ByteOrder) (s : State) :
    exec (.em m bo) s = .next (s.respond (s.emResponse m bo)) := by
  simp [exec, execEm]

end Sys2Proof.Machine
end

