-- ==== Sys2Proof/Laws/PerInstr.lean ====
section
/-! SUPPORT. Statements made per instruction about its syntax. Family RowMatch: the word the encoder writes for a command
is selected by the command's own row of the opcode map, whatever the operands (spec/30_encoding.md R64). -/

namespace Sys2Proof.Laws.RowMatch

/-- The encoded word meets `w & mask == match` of the command's row (R64). -/
def Statement (i : Instr) : Prop := (opcodeRow i.mnemonic).selects (encode i) = true

theorem clr : Statement .clr := by unfold Statement; decide

theorem rdst : Statement .rdst := by unfold Statement; decide

theorem crci : Statement .crci := by unfold Statement; decide

theorem crcb (imm8 : Byte) : Statement (.crcb imm8) := by
  unfold Statement; revert imm8; decide

theorem crcr : Statement .crcr := by unfold Statement; decide

theorem crcv (imm8 : Byte) : Statement (.crcv imm8) := by
  unfold Statement; revert imm8; decide

theorem push (imm8 : Byte) : Statement (.push imm8) := by
  unfold Statement; revert imm8; decide

theorem formatF_selected (nm1 : BitVec 5) (mm1 : BitVec 2) (b : BitVec 1) :
    (opcodeRow .SX).selects (0xA#4 ++ 0#4 ++ nm1 ++ mm1 ++ b) = true := by
  revert nm1 mm1 b; decide

theorem formatG_selected (mm1 : BitVec 2) (b : BitVec 1) :
    (opcodeRow .EM).selects (0xB#4 ++ 0#9 ++ mm1 ++ b) = true := by
  revert mm1 b; decide

theorem sx (n m : Nat) (bo : ByteOrder) : Statement (.sx n m bo) := formatF_selected _ _ _

theorem em (m : Nat) (bo : ByteOrder) : Statement (.em m bo) := formatG_selected _ _

end Sys2Proof.Laws.RowMatch
end

