-- ==== Sys2Proof/Machine/Assembler.lean ====
section
/-! DEFINITION. The assembler notation of spec/30_encoding.md R73 with the macros of R74, as a function from text (a
list of characters) to command words. It is the host's; the block never sees text. What R73 leaves open of the text
(blanks, empty lines, the case of hexadecimal digits) is log entry 14. -/

namespace Sys2Proof.Machine

/-- What a line can begin with: a command's mnemonic (R73) or a macro's name (R74). -/
inductive AsmHead where
  | cmd (m : Mnemonic)
  | crc8
  | vcrc8
  | load
  | loadv
  | s16 (bo : ByteOrder)
  | s24 (bo : ByteOrder)
  | em16 (bo : ByteOrder)
  | em8
  deriving DecidableEq, Repr

/-- The spelling of every head (R73, R74). -/
def asmHeads : List (List Char × AsmHead) :=
  [(['C', 'L', 'R'], .cmd .CLR), (['R', 'D', 'S', 'T'], .cmd .RDST), (['C', 'R', 'C', 'I'], .cmd .CRCI),
   (['C', 'R', 'C', 'B'], .cmd .CRCB), (['C', 'R', 'C', 'R'], .cmd .CRCR), (['C', 'R', 'C', 'V'], .cmd .CRCV),
   (['P', 'U', 'S', 'H'], .cmd .PUSH), (['S', 'X'], .cmd .SX), (['E', 'M'], .cmd .EM),
   (['C', 'R', 'C', '8'], .crc8), (['V', 'C', 'R', 'C', '8'], .vcrc8), (['L', 'O', 'A', 'D'], .load),
   (['L', 'O', 'A', 'D', 'V'], .loadv),
   (['S', '1', '6', 'B', 'E'], .s16 .be), (['S', '1', '6', 'L', 'E'], .s16 .le),
   (['S', '2', '4', 'B', 'E'], .s24 .be), (['S', '2', '4', 'L', 'E'], .s24 .le),
   (['E', 'M', '1', '6', 'B', 'E'], .em16 .be), (['E', 'M', '1', '6', 'L', 'E'], .em16 .le), (['E', 'M', '8'], .em8)]

/-- A blank between the parts of a line. -/
def isBlank (c : Char) : Bool := c == ' ' || c == '\t' || c == '\r'

/-- Text without the blanks at its two ends. -/
def trimBlanks (l : List Char) : List Char :=
  ((l.dropWhile isBlank).reverse.dropWhile isBlank).reverse

/-- The pieces of a text between the occurrences of a separator. -/
def splitAtChar (sep : Char) : List Char → List (List Char)
  | [] => [[]]
  | c :: rest =>
    match splitAtChar sep rest with
    | [] => [[c]]
    | piece :: pieces => if c = sep then [] :: piece :: pieces else (c :: piece) :: pieces

/-- The rows of digit characters R73's numbers are written with: a row's first character, the value it stands for, and how
many characters follow on from it. The letters of a hexadecimal number may be capital or small (log entry 14). -/
def digitRows : List (Char × Nat × Nat) := [('0', 0, 10), ('A', 10, 6), ('a', 10, 6)]

/-- The value of a digit: its row's first value, plus its place in the row; none for a character of no row. -/
def digitValue (ch : Char) : Option Nat :=
  digitRows.findSome? fun row =>
    let place := ch.val.toNat - row.1.val.toNat
    if row.1.val ≤ ch.val ∧ place < row.2.2 then some (row.2.1 + place) else none

/-- Digits read from the left, on top of the value read so far. -/
def parseDigits (base : Nat) : Nat → List Char → Option Nat
  | v, [] => some v
  | v, c :: rest =>
    match digitValue c with
    | none => none
    | some d => if d < base then parseDigits base (v * base + d) rest else none

/-- A number: decimal, or hexadecimal with the prefix 0x (R73). -/
def parseNumber : List Char → Option Nat
  | [] => none
  | '0' :: 'x' :: c :: rest => parseDigits 16 0 (c :: rest)
  | c :: rest => parseDigits 10 0 (c :: rest)

/-- A number in a range. -/
def parseBetween (lo hi : Nat) (l : List Char) : Option Nat :=
  (parseNumber l).filter fun v => decide (lo ≤ v) && decide (v ≤ hi)

/-- A byte operand, 0..255 (R73). -/
def parseByte (l : List Char) : Option Byte := (parseBetween 0 255 l).map (BitVec.ofNat 8)

/-- A byte order, LE or BE (R73). -/
def parseByteOrder : List Char → Option ByteOrder
  | ['L', 'E'] => some .le
  | ['B', 'E'] => some .be
  | _ => none

/-- The operands of a line, separated by commas; none when the text is blank (R73). -/
def operandTexts (l : List Char) : List (List Char) :=
  if trimBlanks l = [] then [] else (splitAtChar ',' l).map trimBlanks

/-- A list of byte operands. -/
def parseBytes : List (List Char) → Option (List Byte)
  | [] => some []
  | t :: rest =>
    match parseByte t, parseBytes rest with
    | some b, some bs => some (b :: bs)
    | _, _ => none

/-- The operands of a macro of the form `d0, ..., d(n-1) / e` (R74). -/
def parseBytesSlash (l : List Char) : Option (List Byte × Byte) :=
  match splitAtChar '/' l with
  | [ds, e] =>
    match parseBytes (operandTexts ds), parseByte (trimBlanks e) with
    | some data, some c => some (data, c)
    | _, _ => none
  | _ => none

/-- 1 to 4 bytes, the length LOAD and LOADV take (R74). -/
def loadLength (data : List Byte) : Bool := decide (1 ≤ data.length) && decide (data.length ≤ 4)

/-- A command with its operands (R73). -/
def parseCommand (m : Mnemonic) (ops : List (List Char)) : Option Instr :=
  match m, ops with
  | .CLR, [] => some .clr
  | .RDST, [] => some .rdst
  | .CRCI, [] => some .crci
  | .CRCB, [b] => (parseByte b).map .crcb
  | .CRCR, [] => some .crcr
  | .CRCV, [b] => (parseByte b).map .crcv
  | .PUSH, [b] => (parseByte b).map .push
  | .SX, [n, m, o] =>
    match parseBetween 1 32 n, parseBetween 1 4 m, parseByteOrder o with
    | some n', some m', some bo => some (.sx n' m' bo)
    | _, _, _ => none
  | .EM, [m, o] =>
    match parseBetween 1 4 m, parseByteOrder o with
    | some m', some bo => some (.em m' bo)
    | _, _ => none
  | _, _ => none

/-- A line's head with the text after it: one command (R73) or a macro's expansion (R74). -/
def parseHead (h : AsmHead) (rest : List Char) : Option (List Instr) :=
  match h with
  | .cmd m => (parseCommand m (operandTexts rest)).map fun i => [i]
  | .crc8 => (parseBytes (operandTexts rest)).map macroCrc8
  | .vcrc8 => (parseBytesSlash rest).map fun p => macroVcrc8 p.1 p.2
  | .load => ((parseBytes (operandTexts rest)).filter loadLength).map macroLoad
  | .loadv => ((parseBytesSlash rest).filter fun p => loadLength p.1).map fun p => macroLoadv p.1 p.2
  | .s16 bo => if trimBlanks rest = [] then some (macroS16 bo) else none
  | .s24 bo => if trimBlanks rest = [] then some (macroS24 bo) else none
  | .em16 bo => if trimBlanks rest = [] then some (macroEm16 bo) else none
  | .em8 => if trimBlanks rest = [] then some macroEm8 else none

/-- One line: a comment runs from `;` to the end, and a line with nothing else is no command (R73). -/
def parseLine (line : List Char) : Option (List Instr) :=
  let code := trimBlanks (line.takeWhile (fun c => c != ';'))
  if code = [] then some []
  else
    match asmHeads.lookup (code.takeWhile (fun c => !isBlank c)) with
    | none => none
    | some h => parseHead h (code.dropWhile (fun c => !isBlank c))

/-- All lines, in order; none if one of them is not in the notation. -/
def parseLines : List (List Char) → Option (List Instr)
  | [] => some []
  | l :: rest =>
    match parseLine l, parseLines rest with
    | some is, some js => some (is ++ js)
    | _, _ => none

/-- The command words a text stands for (R73). -/
def assemble (text : List Char) : Option (List Cmd) :=
  (parseLines (splitAtChar '\n' text)).map fun is => is.map encode

end Sys2Proof.Machine
end

