-- ==== Sys2Proof/Tests/Slice0.lean ====
section
/-! SUPPORT. Tests. Expected results are taken from spec/95_test_vectors.md (section and row in the comment above each
group) or from the rule named there, never from the model. Then one witness per hypothesis of the statements. -/

namespace Sys2Proof.Tests

open Sys2Proof.Machine

/-- A small state with nothing presented and nothing answered. -/
def mk (acc : Byte) (buf : List Byte) (crcErr ovf : Bool) : State :=
  { acc := acc, buf := buf, crcErr := crcErr, ovf := ovf, inputs := [], rsps := [] }

/-- What one command did: the registers after it, and the response. -/
def seen (r : Result) : Option (Byte × List Byte × Bool × Bool × Option Response) :=
  match r with
  | .next t => some (t.acc, t.buf, t.crcErr, t.ovf, t.rsps.getLast?)
  | .fault _ => none
  | .refused _ => none

/-- The instruction a word decodes to, or why it is none. -/
def read (w : Cmd) : Option Instr := (decode w).toOption

-- WellFormed: an ill-formed term for each check (R67: N in 1..32, M in 1..4).
theorem test_wf_refuses_width_zero : (Instr.sx 0 1 .le).wellFormed = false := by decide
theorem test_wf_refuses_width_33 : (Instr.sx 33 4 .le).wellFormed = false := by decide
theorem test_wf_refuses_sx_count_zero : (Instr.sx 8 0 .le).wellFormed = false := by decide
theorem test_wf_refuses_sx_count_5 : (Instr.sx 8 5 .le).wellFormed = false := by decide
theorem test_wf_refuses_em_count_zero : (Instr.em 0 .be).wellFormed = false := by decide
theorem test_wf_refuses_em_count_5 : (Instr.em 5 .be).wellFormed = false := by decide
theorem test_wf_accepts_wide_field_in_small_buffer : (Instr.sx 32 1 .le).wellFormed = true := by decide
theorem test_wf_accepts_em_4 : (Instr.em 4 .be).wellFormed = true := by decide

-- Decoding: words written out bit by bit from the format tables R62, R63, R65, R66 and the opcodes of R64.
theorem test_decode_clr : read 0b0001000000000000#16 = some .clr := by decide
theorem test_decode_rdst : read 0b0010000000000000#16 = some .rdst := by decide
theorem test_decode_crci : read 0b0100000000000000#16 = some .crci := by decide
theorem test_decode_crcb : read 0b0101000010111110#16 = some (.crcb 0xBE#8) := by decide
theorem test_decode_crcr : read 0b0110000000000000#16 = some .crcr := by decide
theorem test_decode_crcv : read 0b0111000010010010#16 = some (.crcv 0x92#8) := by decide
theorem test_decode_push : read 0b1000000011000000#16 = some (.push 0xC0#8) := by decide
theorem test_decode_sx_24_3_be : read 0b1010000010111101#16 = some (.sx 24 3 .be) := by decide
theorem test_decode_sx_1_1_le : read 0b1010000000000000#16 = some (.sx 1 1 .le) := by decide
theorem test_decode_sx_32_4_be : read 0b1010000011111111#16 = some (.sx 32 4 .be) := by decide
theorem test_decode_em_2_be : read 0b1011000000000011#16 = some (.em 2 .be) := by decide
theorem test_decode_em_4_be : read 0b1011000000000111#16 = some (.em 4 .be) := by decide
-- Section 3.5: illegal words.
theorem test_decode_illegal_words :
    [0x0000#16, 0xFFFF#16, 0x3000#16, 0x9000#16, 0xC000#16, 0xD123#16, 0xE0FF#16, 0x1001#16, 0x2800#16, 0x4010#16,
     0x6001#16, 0x5100#16, 0x7F92#16, 0x8865#16, 0xA800#16, 0xB008#16, 0xB0FB#16].all
      (fun w => (read w).isNone) = true := by decide
-- Section 3.6: encodings.
theorem test_encode_words :
    [encode (.sx 1 1 .le), encode (.sx 8 1 .be), encode (.sx 12 2 .be), encode (.sx 16 2 .le), encode (.sx 24 3 .le),
     encode (.sx 32 4 .be), encode (.em 1 .le), encode (.em 2 .le), encode (.em 4 .be), encode (.crcb 0xBE#8),
     encode (.crcv 0x92#8), encode (.push 0xC0#8)] =
    [0xA000#16, 0xA039#16, 0xA05B#16, 0xA07A#16, 0xA0BC#16, 0xA0FF#16, 0xB000#16, 0xB002#16, 0xB007#16, 0x50BE#16,
     0x7092#16, 0x80C0#16] := by decide
theorem test_table_word_is_decoded : decodeTableWord 16 0xA0BD = some (.sx 24 3 .be) := by decide

-- Section 2.1: the CRC algorithm.
theorem test_crc_bit : [crc8Bit 0xFE#8, crc8Bit 0x41#8, crc8Bit 0x80#8, crc8Bit 0x98#8] =
    [0xCD#8, 0x82#8, 0x31#8, 0x01#8] := by decide
theorem test_crc_of_01_02 : computeCrc8 [0x01#8, 0x02#8] = 0x17#8 := by decide +kernel
theorem test_crc_of_nothing : computeCrc8 [] = 0xFF#8 := by decide
theorem test_crc_of_deadbeef : computeCrc8 [0xDE#8, 0xAD#8, 0xBE#8, 0xEF#8] = 0x69#8 := by decide +kernel
theorem test_crc_of_ascii_digits :
    computeCrc8 [0x31#8, 0x32#8, 0x33#8, 0x34#8, 0x35#8, 0x36#8, 0x37#8, 0x38#8, 0x39#8] = 0xF7#8 := by decide +kernel
-- Section 2.2: the table.
theorem test_crc_table_entries : [0x01#8, 0x80#8, 0xFF#8, 0x9F#8].map crc8Table = [0x31#8, 0x7A#8, 0xAC#8, 0x17#8] := by
  decide

-- Section 2.4, rows 12, 8, 13, 3, 5, 6.
theorem test_crci_keeps_crcerr :
    seen (exec .crci (mk 0x92#8 [] true false)) = some (0xFF#8, [], true, false, some (.ok 0#32)) := by decide
theorem test_crcb_steps :
    seen (exec (.crcb 0x01#8) (mk 0xFF#8 [] false false)) = some (0x9D#8, [], false, false, some (.ok 0#32)) := by decide
theorem test_crcr_reads :
    seen (exec .crcr (mk 0x92#8 [] false false)) = some (0x92#8, [], false, false, some (.ok 0x92#32)) := by decide
theorem test_crcv_mismatch_sets_crcerr :
    seen (exec (.crcv 0x92#8) (mk 0xA3#8 [] false false)) = some (0xA3#8, [], true, false, some (.ok 0#32)) := by decide
theorem test_crcv_match_clears_nothing :
    seen (exec (.crcv 0xA3#8) (mk 0xA3#8 [] true false)) = some (0xA3#8, [], true, false, some (.ok 1#32)) := by decide
-- R135's example.
theorem test_clr_empties :
    seen (exec .clr (mk 0xA3#8 [0xBE#8, 0xEE#8] true false)) = some (0xFF#8, [], false, false, some (.ok 0#32)) := by decide
-- R136's example, and section 3.3's full buffer with both flags.
theorem test_rdst_image :
    lastResponse (exec .rdst (mk 0xA3#8 [0xBE#8, 0xEE#8] true false)) = some (.ok 0xA#32) := by decide
theorem test_rdst_largest_image :
    lastResponse (exec .rdst (mk 0#8 [1#8, 2#8, 3#8, 4#8] true true)) = some (.ok 0x1C#32) := by decide
-- Section 3.3, rows 6 and 8.
theorem test_push_fills :
    seen (exec (.push 4#8) (mk 0xFF#8 [1#8, 2#8, 3#8] false false)) =
      some (0xFF#8, [1#8, 2#8, 3#8, 4#8], false, false, some (.ok 0#32)) := by decide
theorem test_push_refused :
    seen (exec (.push 5#8) (mk 0xFF#8 [1#8, 2#8, 3#8, 4#8] false false)) =
      some (0xFF#8, [1#8, 2#8, 3#8, 4#8], false, true, some (.fail .length)) := by decide
-- Section 3.1: the source's example in both byte orders (C1), and a field with bits above it.
theorem test_sx_24_3_be :
    lastResponse (exec (.sx 24 3 .be) (mk 0#8 [0x65#8, 0x5A#8, 0xC0#8] false false)) = some (.ok 0x00655AC0#32) := by decide
theorem test_sx_24_3_le :
    lastResponse (exec (.sx 24 3 .le) (mk 0#8 [0x65#8, 0x5A#8, 0xC0#8] false false)) = some (.ok 0xFFC05A65#32) := by decide
theorem test_sx_value_31_4_be : (mk 0#8 [0xC0#8, 0#8, 0#8, 0#8] false false).sxValue 31 4 .be = 0xC0000000#32 := by decide
theorem test_sx_value_12_2_be : (mk 0#8 [0xF7#8, 0xFF#8] false false).sxValue 12 2 .be = 0x7FF#32 := by decide
-- Section 3.2.
theorem test_em_2_be :
    lastResponse (exec (.em 2 .be) (mk 0#8 [0x8C#8, 0x35#8] false false)) = some (.ok 0x000C3500#32) := by decide
theorem test_em_1_be :
    lastResponse (exec (.em 1 .be) (mk 0#8 [0xF7#8] false false)) = some (.ok 0x00038000#32) := by decide
theorem test_em_value_largest : (mk 0#8 [0xFF#8, 0xFF#8] false false).emValue 2 .le = 0x07FF8000#32 := by decide
theorem test_em_value_2_le : (mk 0#8 [0x8C#8, 0x35#8] false false).emValue 2 .le = 0x00002C60#32 := by decide
-- Section 3.4: priority. The rows with LEN = 3, CRCERR = 1; then LEN = 3, CRCERR = 0; then OVF = 1.
theorem test_priority_with_crcerr :
    [lastResponse (exec (.sx 32 3 .le) (mk 0#8 [1#8, 2#8, 3#8] true false)),
     lastResponse (exec (.sx 32 2 .le) (mk 0#8 [1#8, 2#8, 3#8] true false)),
     lastResponse (exec (.em 3 .le) (mk 0#8 [1#8, 2#8, 3#8] true false))] =
      [some (.fail .checksum), some (.fail .length), some (.fail .checksum)] := by decide
theorem test_priority_without_flags :
    [lastResponse (exec (.sx 25 3 .le) (mk 0#8 [1#8, 2#8, 3#8] false false)),
     lastResponse (exec (.em 3 .le) (mk 0#8 [1#8, 2#8, 3#8] false false)),
     lastResponse (exec (.em 4 .le) (mk 0#8 [1#8, 2#8, 3#8] false false))] =
      [some (.fail .decode), some (.fail .decode), some (.fail .length)] := by decide
theorem test_priority_with_ovf :
    lastResponse (exec (.sx 32 4 .le) (mk 0#8 [1#8, 2#8, 3#8, 4#8] true true)) = some (.fail .length) := by decide

-- The step (R9, R69, R170): a command, an illegal word, a reset, nothing presented.
theorem test_step_runs_first_word :
    seen (step ((mk 0xFF#8 [] false false).withFetchWord 16 0x50BE)) =
      some (0x0C#8, [], false, false, some (.ok 0#32)) := by decide
theorem test_step_illegal :
    seen (step ((mk 0x12#8 [7#8] true false).presentWord 0xA800#16)) =
      some (0x12#8, [7#8], true, false, some (.fail .illegal)) := by decide
theorem test_step_reset :
    seen (step { mk 0x12#8 [7#8] true false with inputs := [.rst] }) = some (0xFF#8, [], false, false, none) := by decide
theorem test_step_idle : seen (step (mk 0x12#8 [7#8] true false)) = some (0x12#8, [7#8], true, false, none) := by decide
-- Section 2.3 and R99: a frame with its trailing CRC.
theorem test_valid_frame : [validFrame [0xBE#8, 0xEF#8, 0x92#8], validFrame [0xBE#8, 0xEE#8, 0x92#8]] = [true, false] := by
  decide +kernel
-- R72's numbers.
theorem test_status_numbers :
    [Response.status (.ok 5#32), Response.status (.fail .length), Response.status (.fail .illegal)] =
      [0#3, 2#3, 5#3] := by decide
-- R175: CLR, or reset, before the first PUSH; program P1 keeps all the duties, and without its CLR only when begun at reset.
/-- Program P1 (section 4) without its CLR. -/
def p1Tail : List HostEvent :=
  [.crci, .push 0xBE#8, .crcb 0xBE#8, .push 0xEF#8, .crcb 0xEF#8, .crcr, .crcv 0x92#8, .sx 16 2 .be].map .command
theorem test_duties_of_p1 :
    [keepsHostDuties false (fun _ => true) (.command .clr :: p1Tail), keepsHostDuties false (fun _ => true) (.reset :: p1Tail),
     keepsHostDuties true (fun _ => true) p1Tail, keepsHostDuties false (fun _ => true) p1Tail] =
      [true, true, true, false] := by decide
/-- R178's check of a command list whose bytes all carry a CRC. -/
def verifiesFirst (is : List Instr) : Bool := verifiesBeforeDecode (fun _ => true) .start (is.map .command)
-- R178: two bytes decoded with a verdict on one; a byte decoded whose word was given up, with a verdict on another byte; a
-- byte of a second word decoded before its own CRCV.
theorem test_duty_every_byte_verified :
    [verifiesFirst [.clr, .push 1#8, .push 2#8, .crcb 1#8, .crcv 0#8, .sx 16 2 .be, .crci, .crcb 2#8, .crcv 0#8],
     verifiesFirst [.clr, .push 1#8, .crcb 1#8, .crci, .crcb 2#8, .crcv 0#8, .sx 8 1 .le, .push 2#8],
     verifiesFirst [.clr, .push 1#8, .crcb 1#8, .crcv 0#8, .clr, .push 1#8, .sx 8 1 .le, .crcb 1#8, .crcv 0#8]] =
      [false, false, false] := by decide
-- The given-up word with the other byte equal to it: the second PUSH then has no CRCV (R177). Without that PUSH it is one
-- byte checked again from the start, before it is decoded.
theorem test_duty_word_given_up :
    [keepsHostDuties false (fun _ => true)
       ([Instr.clr, .push 1#8, .crcb 1#8, .crci, .crcb 1#8, .crcv 0#8, .sx 8 1 .le, .push 1#8].map .command),
     keepsHostDuties false (fun _ => true)
       ([Instr.clr, .push 1#8, .crcb 1#8, .crci, .crcb 1#8, .crcv 0#8, .sx 8 1 .le].map .command)] = [false, true] := by decide
-- What R178 allows: a verdict given before the byte is pushed; a frame verified whole and then decoded in two parts.
theorem test_duty_verified_earlier :
    [verifiesFirst [.clr, .crcb 1#8, .crcv 0#8, .push 1#8, .sx 8 1 .le],
     verifiesFirst [.clr, .crcb 1#8, .crcb 2#8, .crcv 0#8, .push 1#8, .sx 8 1 .le, .clr, .push 2#8, .sx 8 1 .le]] =
      [true, true] := by decide
-- R178: a decode before the CRCV, on data with a CRC and on data without; a byte without a CRC before one with.
theorem test_duty_verify_first :
    [keepsHostDuties false (fun _ => true) ([Instr.clr, .push 1#8, .crcb 1#8, .sx 8 1 .le, .crcv 0x9D#8].map .command),
     keepsHostDuties false (fun _ => false) ([Instr.clr, .push 1#8, .sx 8 1 .le].map .command),
     keepsHostDuties false (fun k => k == 1)
       ([Instr.clr, .push 9#8, .em 1 .le, .push 1#8, .crcb 1#8, .crcv 0x9D#8, .sx 16 2 .be].map .command)] =
      [false, true, true] := by decide
-- R178: no value is used once a CRCV of the transaction has answered 0.
theorem test_usable_values :
    [usableValues [(Instr.sx 8 1 .le, .ok 5#32), (.crcv 1#8, .ok 1#32), (.em 1 .le, .fail .length)],
     usableValues [(Instr.sx 8 1 .le, .ok 5#32), (.crcv 1#8, .ok 0#32)]] = [[5#32], []] := by decide
-- R176, R177: a second word without CRCI; other bytes checked than pushed.
theorem test_duty_init_each_word :
    initBeforeEachWord false ([Instr.clr, .crcb 1#8, .crcv 0x9D#8, .crcb 2#8, .crcv 0#8].map .command) = false := by decide
theorem test_duty_both_paths :
    feedsBothPaths (fun _ => true) ([Instr.clr, .push 1#8, .crcb 2#8, .crcv 0#8].map .command) = false := by decide

-- R73, R74: the assembler's examples, a comment, a macro.
theorem test_assemble_sx :
    assemble ['S', 'X', ' ', '2', '4', ',', ' ', '3', ',', ' ', 'B', 'E'] = some [0xA0BD#16] := by decide
theorem test_assemble_two_lines :
    assemble ['C', 'R', 'C', 'B', ' ', '0', 'x', 'B', 'E', ' ', ';', 'd', '\n', 'E', 'M', ' ', '2', ',', 'B', 'E'] =
      some [0x50BE#16, 0xB003#16] := by decide
theorem test_assemble_macro :
    assemble ['V', 'C', 'R', 'C', '8', ' ', '1', ',', '2', ' ', '/', ' ', '0', 'x', '1', '7'] =
      some [0x4000#16, 0x5001#16, 0x5002#16, 0x7017#16] := by decide
theorem test_assemble_refuses_range :
    [assemble ['P', 'U', 'S', 'H', ' ', '2', '5', '6'], assemble ['S', 'X', ' ', '3', '3', ',', '4', ',', 'L', 'E'],
     assemble ['N', 'O', 'P']] = [none, none, none] := by decide
theorem test_digit_values :
    [digitValue '0', digitValue '9', digitValue 'A', digitValue 'F', digitValue 'f', digitValue 'G', digitValue '/',
     digitValue ':'] = [some 0, some 9, some 10, some 15, some 15, none, none, none] := by decide

/-! Witnesses: for each statement with hypotheses, a concrete state and operands that meet all of them together, one for
each clause where the clauses differ, at a boundary of their range. -/

/-- A state that is presented one command word and then a reset. -/
def shown (w : Cmd) (s : State) : State := { s with inputs := [.cmd w, .rst] }

/-- A full buffer. -/
def full (crcErr ovf : Bool) : State := mk 0xA3#8 [1#8, 2#8, 3#8, 4#8] crcErr ovf

theorem witness_DecodeEncodeRoundTrip :
    (Instr.sx 1 1 .le).wellFormed = true ∧ (Instr.sx 32 4 .be).wellFormed = true ∧
    (Instr.em 4 .be).wellFormed = true := by decide
theorem witness_EncodeDecodeRoundTrip : decode 0xA0FF#16 = .ok (.sx 32 4 .be) := by decide
theorem witness_OperandsTakenFromWord :
    decode 0x50FF#16 = .ok (.crcb 0xFF#8) ∧ decode 0x7000#16 = .ok (.crcv 0#8) ∧ decode 0x80C0#16 = .ok (.push 0xC0#8) ∧
    decode 0xA000#16 = .ok (.sx 1 1 .le) ∧ decode 0xA0FF#16 = .ok (.sx 32 4 .be) ∧
    decode 0xB000#16 = .ok (.em 1 .le) ∧ decode 0xB007#16 = .ok (.em 4 .be) := by decide
theorem witness_AssemblerWordIsEncoding : (Instr.crcv 0x92#8).wellFormed = true := by decide
theorem witness_StepRunsDecodedCommand :
    (shown 0x50BE#16 (full true true)).inputs = [.cmd 0x50BE#16, .rst] ∧ decode 0x50BE#16 = .ok (.crcb 0xBE#8) := by decide
theorem witness_IllegalWordIsAnswered :
    (shown 0xFFFF#16 (full true true)).inputs = [.cmd 0xFFFF#16, .rst] ∧
    decode 0xFFFF#16 = .error .unassignedOpcode ∧ decode 0xB008#16 = .error .nonzeroReservedField := by decide
theorem witness_ResetBetweenCommands : ({ full true true with inputs := [.rst] }).inputs = [.rst] := rfl
theorem witness_StepAlwaysGoesOn : (full true true).inputs = [] := rfl
theorem witness_OneResponsePerCommand : (shown 0x3000#16 (full false true)).inputs = [.cmd 0x3000#16, .rst] := rfl
theorem witness_ResetAndClrAgree : ({ full true true with inputs := [.rst, .rst] }).inputs = [.rst, .rst] := rfl
theorem witness_CrcvAnswersVerdict : (full false false).acc = 0xA3#8 ∧ (full false false).acc ≠ 0xA2#8 := by decide
theorem witness_ClrEndsTransaction :
    (∃ t, exec (.crcv 0#8) (full true true) = .next t) ∧ Instr.crcv 0#8 ≠ .clr := ⟨⟨_, rfl⟩, by decide⟩
theorem witness_PushAppendsAtLen :
    (mk 0#8 [] false false).len ≠ 4 ∧ (mk 0#8 [1#8, 2#8, 3#8] true false).len ≠ 4 := by decide
theorem witness_PushRefusedWhenFull : (full false false).len = 4 ∧ (full true true).len = 4 := by decide
theorem witness_BufReadAssemblesBytes : (mk 0#8 [9#8] false false).len = 1 ∧ (full false false).len = 4 := by decide
theorem witness_SxSignExtendsField :
    (mk 0#8 [9#8] false false).ovf = false ∧ (mk 0#8 [9#8] false false).len = 1 ∧
    (mk 0#8 [9#8] false false).crcErr = false ∧ 1 ≤ 8 * 1 ∧ 8 ≤ 8 * 1 ∧
    (full false false).ovf = false ∧ (full false false).len = 4 ∧ (full false false).crcErr = false ∧ 32 ≤ 8 * 4 := by decide
theorem witness_SignExtensionClosedForm :
    (1 < 2 ^ 1 ∧ ¬ 1 < 2 ^ (1 - 1)) ∧ (0x7FFFFFFF < 2 ^ 32 ∧ 0x7FFFFFFF < 2 ^ (32 - 1)) ∧
    (0x80000000 < 2 ^ 32 ∧ ¬ 0x80000000 < 2 ^ (32 - 1)) := by decide
theorem witness_EmAnswersExactProduct :
    (mk 0#8 [9#8] false false).ovf = false ∧ (mk 0#8 [9#8] false false).len = 1 ∧
    (mk 0#8 [9#8] false false).crcErr = false ∧ (mk 0#8 [9#8, 8#8] false false).len = 2 := by decide
theorem witness_EmProductFits : 0xFF < 2 ^ (8 * 1) ∧ 0xFFFF < 2 ^ (8 * 2) := by decide
theorem witness_DecodeAdmissionOrder_format :
    ((∃ n bo, Instr.sx 8 1 .le = .sx n 1 bo ∧ ((8 : Nat) ≤ 8 * 1 ↔ n ≤ 8 * 1)) ∧
     (∃ n bo, Instr.sx 9 1 .le = .sx n 1 bo ∧ ((9 : Nat) ≤ 8 * 1 ↔ n ≤ 8 * 1))) ∧
    (∃ bo, Instr.em 3 .be = .em 3 bo ∧ ((3 : Nat) ≤ 2 ↔ 3 ≤ 2)) :=
  ⟨⟨⟨8, .le, rfl, Iff.rfl⟩, ⟨9, .le, rfl, Iff.rfl⟩⟩, ⟨.be, rfl, Iff.rfl⟩⟩
theorem witness_DecodeAdmissionOrder_clauses :
    ((full false true).ovf = true) ∧ ((full false false).len ≠ 3) ∧
    ((full true false).ovf = false ∧ (full true false).len = 4 ∧ (full true false).crcErr = true) ∧
    ((full false false).ovf = false ∧ (full false false).len = 4 ∧ (full false false).crcErr = false) := by decide
theorem witness_FailurePriority :
    (shown 0x0000#16 (full true true)).inputs = [.cmd 0x0000#16, .rst] ∧
    (shown 0xA0FC#16 (mk 0#8 [1#8, 2#8, 3#8] true false)).inputs = [.cmd 0xA0FC#16, .rst] ∧
    decode 0xA0FC#16 = .ok (.sx 32 3 .le) := by decide
theorem witness_FailureWritesNothingButOvf :
    lastResponse (step (shown 0x8005#16 (full false false))) = some (.fail .length) ∧
    lastResponse (step (shown 0xA0FE#16 (full true false))) = some (.fail .checksum) := by decide
theorem witness_TransportNeverRaised : ∃ t, step (shown 0x8005#16 (full false false)) = .next t := ⟨_, rfl⟩
theorem witness_DecodesArePure :
    (Instr.sx 32 4 .be).isDecode = true ∧ (Instr.em 2 .le).isDecode = true ∧
    (mk 1#8 [5#8] true false).buf = (mk 2#8 [5#8] true false).buf ∧
    (mk 1#8 [5#8] true false).acc ≠ (mk 2#8 [5#8] true false).acc := by decide
theorem witness_CommandWriteSets :
    (∃ t, exec .rdst (full true true) = .next t) ∧ (∃ t, exec (.crcv 1#8) (full true true) = .next t) ∧
    (∃ t, exec (.push 1#8) (full true true) = .next t) := ⟨⟨_, rfl⟩, ⟨_, rfl⟩, ⟨_, rfl⟩⟩
theorem witness_CrcErrSetAndCleared : ∃ t, step (shown 0x7001#16 (full false false)) = .next t := ⟨_, rfl⟩
theorem witness_OvfSetAndCleared : ∃ t, step (shown 0x8001#16 (full false false)) = .next t := ⟨_, rfl⟩
theorem witness_BufferGrowsOrEmpties :
    (∃ t, step (shown 0x8001#16 (mk 0#8 [1#8] false false)) = .next t) ∧
    (∃ t, step (shown 0x1000#16 (full false false)) = .next t) := ⟨⟨_, rfl⟩, ⟨_, rfl⟩⟩
theorem witness_StepKeepsInvariant :
    (shown 0x8001#16 (full false true)).Inv ∧ ∃ t, step (shown 0x8001#16 (full false true)) = .next t :=
  ⟨by decide, _, rfl⟩
theorem witness_ReachableStatesMeetInvariant : ∃ t, runWords [0x8065#16, 0x2000#16] State.reset = .next t := ⟨_, rfl⟩
/-- Two states that differ in what is presented to them meet every premise of StateIsObservable. -/
theorem witness_StateIsObservable_answers :
    (mk 3#8 [1#8, 2#8] false false).rsps = (shown 0#16 (mk 3#8 [1#8, 2#8] false false)).rsps ∧
    [Instr.crcr, .rdst, .sx 16 2 .le].all (fun i =>
      lastResponse (exec i (mk 3#8 [1#8, 2#8] false false)) ==
        lastResponse (exec i (shown 0#16 (mk 3#8 [1#8, 2#8] false false)))) = true := by decide
theorem witness_StateIsObservable :
    (mk 3#8 [1#8, 2#8] false false).Inv ∧ (shown 0#16 (mk 3#8 [1#8, 2#8] false false)).Inv ∧
    (mk 3#8 [1#8, 2#8] false false).crcErr = false ∧
    (mk 3#8 [1#8, 2#8] false false).ovf = false ∧ 1 ≤ (mk 3#8 [1#8, 2#8] false false).len := by decide
theorem witness_VerifyRoundTrip :
    ∃ t, exec .crcr (full true false) = .next t ∧ answeredWith (full true false) t (.ok 0xA3#32) := ⟨_, rfl, rfl, rfl⟩
theorem witness_SingleBitErrorsDetected :
    [0xBE#8, 0xEF#8].length = [0x00#8, 0x01#8].length ∧ (0 < 8 ∧ 7 < 8) := by decide
theorem witness_CrcAcrossOtherCommands :
    ∀ i ∈ [Instr.push 1#8, .crcb 1#8, .rdst, .sx 8 1 .le, .crcv 2#8], i.startsOver = false := by decide
theorem witness_CrcErrSumsUpVerdicts :
    ∀ i ∈ [Instr.crcb 1#8, .crcv 0x9D#8, .crci, .crcb 2#8, .crcv 0#8], i ≠ .clr := by decide
theorem witness_LoadvLoadsAndChecks :
    1 ≤ [0xBE#8].length ∧ [0xBE#8].length ≤ 4 ∧ [1#8, 2#8, 3#8, 4#8].length ≤ 4 := by decide
/-- Program P1's frame (section 4): all the premises of NoValueFromBadData together, from a state that is not reset. -/
theorem witness_NoValueFromBadData :
    (∀ i ∈ [Instr.push 0xBE#8, .crcb 0xBE#8], i.startsOver = false) ∧
    pushedBytes [Instr.push 0xBE#8, .crcb 0xBE#8] = checkedBytes [Instr.push 0xBE#8, .crcb 0xBE#8] ∧
    (Instr.sx 8 1 .be).isDecode = true ∧
    ∃ t, execAll (.clr :: [Instr.push 0xBE#8, .crcb 0xBE#8] ++ .crcv 0x0C#8 :: [.rdst]) (full true true) = .next t ∧
      lastResponse (exec (.sx 8 1 .be) t) = some (.ok 0xFFFFFFBE#32) :=
  ⟨by decide, by decide, by decide, _, rfl, by decide +kernel⟩
theorem witness_NoValueFromBadData_after :
    ∀ i ∈ [Instr.rdst], i ≠ .clr ∧ ∀ b, i ≠ .push b := by simp
/-- A frame of two words, each with its CRC (0xD6 of [0x80], 0x9D of [0x01]; section 2.1), from the state after CLR. -/
theorem witness_DutifulDecodeReadsVerifiedWords :
    sameRegisters State.reset ((full true true).resetRegisters) ∧
    (∀ i ∈ [Instr.push 0x80#8, .crcb 0x80#8, .crcv 0xD6#8, .crci, .push 1#8, .crcb 1#8, .crcv 0x9D#8], i ≠ .clr) ∧
    keepsHostDuties true (fun _ => true) ([Instr.push 0x80#8, .crcb 0x80#8, .crcv 0xD6#8, .crci, .push 1#8, .crcb 1#8,
      .crcv 0x9D#8].map .command ++ [.command (.sx 16 2 .be)]) = true ∧ (Instr.sx 16 2 .be).isDecode = true ∧
    ∃ t, execAll [Instr.push 0x80#8, .crcb 0x80#8, .crcv 0xD6#8, .crci, .push 1#8, .crcb 1#8, .crcv 0x9D#8]
        (full true true).resetRegisters = .next t ∧
      lastResponse (exec (.sx 16 2 .be) t) = some (.ok 0xFFFF8001#32) :=
  ⟨⟨rfl, rfl, rfl, rfl, fun _ => rfl⟩, by decide, by decide, by decide, _, rfl, by decide +kernel⟩
theorem witness_StaleBufferIsCaught :
    (mk 0#8 [9#8] false false).Inv ∧ 1 ≤ (mk 0#8 [9#8] false false).len ∧ (full false true).Inv ∧
    1 ≤ [1#8, 2#8].length := by decide
theorem witness_RunOfWordsIsRunOfCommands :
    ∀ i ∈ [Instr.clr, .push 1#8, .sx 32 4 .be, .em 3 .le], i.wellFormed = true := by decide

end Sys2Proof.Tests
end

section
/-! PROOFS. What one command does, said once: its effect on the registers and its response. Every later proof inverts an
execution through `exec_eq_next_iff` and never unfolds a meaning. -/

namespace Sys2Proof.Machine

/-- `CommandEffect s i u r`: executed in `s`, command `i` leaves the registers of `u` and answers `r`. -/
inductive CommandEffect (s : State) : Instr → State → Response → Prop
  | clr : CommandEffect s .clr s.resetRegisters (.ok 0#32)
  | rdst : CommandEffect s .rdst s (.ok s.statusImage)
  | crci : CommandEffect s .crci (s.setAcc Config.init) (.ok 0#32)
  | crcb (b : Byte) : CommandEffect s (.crcb b) (s.setAcc (crc8Byte s.acc b)) (.ok 0#32)
  | crcr : CommandEffect s .crcr s (.ok (s.acc.setWidth 32))
  | crcvMatch {c : Byte} (h : s.acc = c) : CommandEffect s (.crcv c) s (.ok 1#32)
  | crcvMismatch {c : Byte} (h : s.acc ≠ c) : CommandEffect s (.crcv c) s.raiseCrcErr (.ok 0#32)
  | pushRoom {b : Byte} (h : s.len ≠ 4) : CommandEffect s (.push b) (s.bufAppend b) (.ok 0#32)
  | pushFull {b : Byte} (h : s.len = 4) : CommandEffect s (.push b) s.raiseOvf (.fail .length)
  | sx (n m : Nat) (bo : ByteOrder) : CommandEffect s (.sx n m bo) s (s.sxResponse n m bo)
  | em (m : Nat) (bo : ByteOrder) : CommandEffect s (.em m bo) s (s.emResponse m bo)

theorem exists_commandEffect (i : Instr) (s : State) : ∃ u r, CommandEffect s i u r := by
  cases i with
  | clr => exact ⟨_, _, .clr⟩
  | rdst => exact ⟨_, _, .rdst⟩
  | crci => exact ⟨_, _, .crci⟩
  | crcb b => exact ⟨_, _, .crcb b⟩
  | crcr => exact ⟨_, _, .crcr⟩
  | crcv c =>
    by_cases h : s.acc = c
    · exact ⟨_, _, .crcvMatch h⟩
    · exact ⟨_, _, .crcvMismatch h⟩
  | push b =>
    by_cases h : s.len = 4
    · exact ⟨_, _, .pushFull h⟩
    · exact ⟨_, _, .pushRoom h⟩
  | sx n m bo => exact ⟨_, _, .sx n m bo⟩
  | em m bo => exact ⟨_, _, .em m bo⟩

/-- The effect is what the model executes. -/
theorem CommandEffect.exec_eq {s u : State} {i : Instr} {r : Response} (h : CommandEffect s i u r) :
    exec i s = .next (u.respond r) := by
  cases h with
  | clr => exact exec_clr s
  | rdst => exact exec_rdst s
  | crci => exact exec_crci s
  | crcb b => exact exec_crcb b s
  | crcr => exact exec_crcr s
  | crcvMatch h => exact exec_crcv_match h
  | crcvMismatch h => exact exec_crcv_mismatch h
  | pushRoom h => exact exec_push_room h
  | pushFull h => exact exec_push_full h
  | sx n m bo => exact exec_sx n m bo s
  | em m bo => exact exec_em m bo s

/-- Everything an execution can be, and that each such effect is an execution. -/
theorem exec_eq_next_iff {i : Instr} {s t : State} :
    exec i s = .next t ↔ ∃ u r, CommandEffect s i u r ∧ t = u.respond r := by
  constructor
  · intro h
    obtain ⟨u, r, he⟩ := exists_commandEffect i s
    rw [he.exec_eq] at h
    cases h
    exact ⟨u, r, he, rfl⟩
  · rintro ⟨u, r, he, rfl⟩
    exact he.exec_eq

/-- No effect reaches what the host presents or the responses given before (log entries 1 and 2). -/
theorem CommandEffect.frame {s u : State} {i : Instr} {r : Response} (h : CommandEffect s i u r) :
    u.inputs = s.inputs ∧ u.rsps = s.rsps := by
  cases h <;> exact ⟨rfl, rfl⟩

/-- No effect depends on what the host presents next (log entry 1). -/
theorem CommandEffect.withInputs {s u : State} {i : Instr} {r : Response} (h : CommandEffect s i u r)
    (l : List HostInput) : CommandEffect { s with inputs := l } i { u with inputs := l } r := by
  cases h with
  | clr => exact .clr
  | rdst => exact .rdst
  | crci => exact .crci
  | crcb b => exact .crcb b
  | crcr => exact .crcr
  | crcvMatch h => exact .crcvMatch h
  | crcvMismatch h => exact .crcvMismatch h
  | pushRoom h => exact .pushRoom h
  | pushFull h => exact .pushFull h
  | sx n m bo => exact .sx n m bo
  | em m bo => exact .em m bo

/-- Execution is total and answers exactly once (R8, R9). -/
theorem exec_answersOnce (i : Instr) (s : State) : ∃ t r, exec i s = .next t ∧ answeredWith s t r := by
  obtain ⟨u, r, he⟩ := exists_commandEffect i s
  obtain ⟨hin, hrsps⟩ := he.frame
  exact ⟨u.respond r, r, he.exec_eq, by simp [hrsps], by simp [hin]⟩

theorem exec_withInputs {i : Instr} {s t : State} (h : exec i s = .next t) (l : List HostInput) :
    exec i { s with inputs := l } = .next { t with inputs := l } := by
  obtain ⟨u, r, he, rfl⟩ := exec_eq_next_iff.mp h
  exact (he.withInputs l).exec_eq

end Sys2Proof.Machine
end

section
/-! PROOFS. The step, one equation per kind of input (R9, R69, R170), and the obligations on a single step. -/

namespace Sys2Proof.Machine

theorem step_idle {s : State} (h : s.inputs = []) : step s = .next s := by
  simp [step, State.takeInput_eq_none.mpr h]

theorem step_rst {s : State} {rest : List HostInput} (h : s.inputs = .rst :: rest) :
    step s = .next { s with inputs := rest }.resetRegisters := by
  simp [step, State.takeInput_cons h]

theorem step_legal {s : State} {w : Cmd} {rest : List HostInput} {i : Instr} (h : s.inputs = .cmd w :: rest)
    (hd : decode w = .ok i) : step s = exec i { s with inputs := rest } := by
  simp [step, State.takeInput_cons h, hd]

theorem step_illegal {s : State} {w : Cmd} {rest : List HostInput} {why : IllegalWord}
    (h : s.inputs = .cmd w :: rest) (hd : decode w = .error why) :
    step s = .next ({ s with inputs := rest }.respond (.fail .illegal)) := by
  simp [step, State.takeInput_cons h, hd]

/-- Settles O8. -/
theorem stepRunsDecodedCommand : Obligations.StepRunsDecodedCommand :=
  fun _ _ _ _ h hd => step_legal h hd

/-- Settles O12: an illegal word is answered by the step itself, a legal one by its command. -/
theorem oneResponsePerCommand : Obligations.OneResponsePerCommand := by
  intro s w rest h
  cases hd : decode w with
  | error why => exact ⟨_, _, step_illegal h hd, rfl, rfl⟩
  | ok i =>
    obtain ⟨t, r, ht, hrsps, hin⟩ := exec_answersOnce i { s with inputs := rest }
    exact ⟨t, r, (step_legal h hd).trans ht, hrsps, hin⟩

/-- Settles O11: by what is presented, nothing, a reset or a word. -/
theorem stepAlwaysGoesOn : Obligations.StepAlwaysGoesOn := by
  intro s
  rcases hin : s.inputs with _ | ⟨_ | _, rest⟩
  · exact ⟨s, step_idle hin, fun _ => rfl⟩
  · obtain ⟨t, _, ht, _⟩ := oneResponsePerCommand s _ rest hin
    exact ⟨t, ht, nofun⟩
  · exact ⟨_, step_rst hin, nofun⟩

end Sys2Proof.Machine
end

section
/-! PROOFS. Runs (R9): over any words, and over the words of commands, for which decoding undoes encoding (R68). -/

namespace Sys2Proof.Machine

theorem runSteps_answersEachWord (ws : List Cmd) (s : State) (h : s.inputs = ws.map .cmd) :
    ∃ t, runSteps ws.length s = .next t ∧ t.inputs = [] ∧ ∃ rs, t.rsps = s.rsps ++ rs ∧ rs.length = ws.length := by
  induction ws generalizing s with
  | nil => exact ⟨s, rfl, h, [], by simp, rfl⟩
  | cons w rest ih =>
    obtain ⟨u, r, hu, hur, hui⟩ := oneResponsePerCommand s w _ h
    obtain ⟨t, ht, hti, rs, hrs, hlen⟩ := ih u hui
    refine ⟨t, ?_, hti, r :: rs, by simp [hrs, hur], by simp [hlen]⟩
    rw [List.length_cons, runSteps_succ hu, ht]

/-- Settles O55, by induction on the words. -/
theorem runGivesOneResponsePerWord : Obligations.RunGivesOneResponsePerWord :=
  fun ws s => runSteps_answersEachWord ws (s.presentAll ws) rfl

theorem decode_formatF (n1 : BitVec 5) (m1 : BitVec 2) (bo : ByteOrder) :
    decode (0xA#4 ++ 0#4 ++ n1 ++ m1 ++ bo.bit) = .ok (.sx (n1.toNat + 1) (m1.toNat + 1) bo) := by
  cases bo <;> revert n1 m1 <;> decide

theorem decode_formatG (m1 : BitVec 2) (bo : ByteOrder) :
    decode (0xB#4 ++ 0#9 ++ m1 ++ bo.bit) = .ok (.em (m1.toNat + 1) bo) := by
  cases bo <;> revert m1 <;> decide

theorem wfFieldWidth_iff {n : Nat} : wfFieldWidth n = true ↔ 1 ≤ n ∧ n ≤ 32 := by simp [wfFieldWidth]

theorem wfByteCount_iff {m : Nat} : wfByteCount m = true ↔ 1 ≤ m ∧ m ≤ 4 := by simp [wfByteCount]

/-- The "minus one" coding of N (R67) is exact on its range. -/
theorem fieldWidth_coding {n : Nat} (h : wfFieldWidth n = true) : (BitVec.ofNat 5 (n - 1)).toNat + 1 = n := by
  have := wfFieldWidth_iff.mp h
  rw [BitVec.toNat_ofNat]
  omega

/-- The "minus one" coding of M (R67) is exact on its range. -/
theorem byteCount_coding {m : Nat} (h : wfByteCount m = true) : (BitVec.ofNat 2 (m - 1)).toNat + 1 = m := by
  have := wfByteCount_iff.mp h
  rw [BitVec.toNat_ofNat]
  omega

/-- A well-formed command is read back from its word (R68). -/
theorem decode_encode {i : Instr} (h : i.wellFormed = true) : decode (encode i) = .ok i := by
  cases i with
  | clr | rdst | crci | crcr => rfl
  | crcb b | crcv b | push b => clear h; revert b; decide
  | sx n m bo =>
    obtain ⟨hn, hm⟩ := Bool.and_eq_true_iff.mp h
    rw [encode, encodeF, decode_formatF, fieldWidth_coding hn, byteCount_coding hm]
  | em m bo => rw [encode, encodeG, decode_formatG, byteCount_coding h]

theorem runSteps_encoded (is : List Instr) (s : State) (hwf : ∀ i ∈ is, i.wellFormed = true)
    (h : s.inputs = (is.map encode).map .cmd) : runSteps is.length s = execAll is { s with inputs := [] } := by
  induction is generalizing s with
  | nil => cases s; cases h; rfl
  | cons i rest ih =>
    obtain ⟨hi, hrest⟩ := List.forall_mem_cons.mp hwf
    obtain ⟨t, r, ht, -, hin⟩ := exec_answersOnce i { s with inputs := (rest.map encode).map .cmd }
    have hstep : step s = .next t := (step_legal h (decode_encode hi)).trans ht
    rw [List.length_cons, runSteps_succ hstep, ih t hrest hin, execAll_cons (exec_withInputs ht [])]

/-- Settles O56, by induction on the commands. -/
theorem runOfWordsIsRunOfCommands : Obligations.RunOfWordsIsRunOfCommands := by
  intro is s hwf
  rw [runWords, List.length_map]
  exact runSteps_encoded is (s.presentAll (is.map encode)) hwf rfl

end Sys2Proof.Machine
end

section
/-! PROOFS. The byte step as division by the nine-bit divisor 0x131 (R4, R93): each bit step is one step of the long
division, which subtracts the divisor when the bit shifted out is 1 and puts that bit into the quotient. -/

namespace Sys2Proof.Machine

/-- Add to `acc`, without carries, the divisor at each place of `l` where `q` has a 1. -/
def addDivisorAt (q : Byte) (acc : Nat) (l : List Nat) : Nat :=
  l.foldl (fun acc k => if q.getLsbD k then acc ^^^ (0x131 <<< k) else acc) acc

/-- The carry-less product of `q` with the divisor. -/
def timesDivisor (q : Byte) : Nat := addDivisorAt q 0 (List.range 8)

/-- The quotient that `k` bit steps find, from the top bit down. -/
def crc8Quotient : Nat → Byte → Byte
  | 0, _ => 0#8
  | k + 1, a => (if a.getLsbD 7 then 1#8 <<< k else 0#8) ^^^ crc8Quotient k (crc8Bit a)

theorem addDivisorAt_xor (p q : Byte) (x y : Nat) (l : List Nat) :
    addDivisorAt (p ^^^ q) (x ^^^ y) l = addDivisorAt p x l ^^^ addDivisorAt q y l := by
  induction l generalizing x y with
  | nil => rfl
  | cons k rest ih =>
    simp only [addDivisorAt, List.foldl_cons, BitVec.getLsbD_xor] at ih ⊢
    rw [← ih]
    congr 1
    cases p.getLsbD k <;> cases q.getLsbD k <;>
      simp [Nat.xor_assoc, Nat.xor_comm, Nat.xor_left_comm]

theorem timesDivisor_xor (p q : Byte) : timesDivisor (p ^^^ q) = timesDivisor p ^^^ timesDivisor q :=
  addDivisorAt_xor p q 0 0 (List.range 8)

theorem timesDivisor_bit (k : Nat) (hk : k < 8) : timesDivisor (1#8 <<< k) = 0x131 <<< k := by
  revert k; decide

/-- The bit step subtracts the divisor when the bit shifted out is 1 (R91). -/
theorem crc8Bit_toNat (a : Byte) : (crc8Bit a).toNat = (a.toNat <<< 1) ^^^ (if a.getLsbD 7 then 0x131 else 0) := by
  revert a; decide

theorem crc8Bits_toNat (k : Nat) (a : Byte) (hk : k ≤ 8) :
    (crc8Bits k a).toNat = (a.toNat <<< k) ^^^ timesDivisor (crc8Quotient k a) := by
  induction k generalizing a with
  | zero => simp [crc8Bits, crc8Quotient, timesDivisor, addDivisorAt]
  | succ k ih =>
    have hbit : timesDivisor (if a.getLsbD 7 then 1#8 <<< k else 0#8) =
        (if a.getLsbD 7 then 0x131 else 0) <<< k := by
      split
      · exact timesDivisor_bit k hk
      · simp [timesDivisor, addDivisorAt]
    rw [crc8Bits, ih _ (by omega), crc8Bit_toNat, Nat.shiftLeft_xor_distrib, ← Nat.shiftLeft_add, Nat.add_comm 1 k,
      Nat.xor_assoc, crc8Quotient, timesDivisor_xor, hbit]

/-- Settles O44: the quotient is the one eight bit steps find. -/
theorem crcByteIsPolynomialRemainder : Obligations.CrcByteIsPolynomialRemainder :=
  fun a d => ⟨crc8Quotient 8 (a ^^^ d), crc8Bits_toNat 8 (a ^^^ d) le_rfl⟩

end Sys2Proof.Machine
end

section
/-! PROOFS. What a run without a second CLR keeps: OVF and CRCERR are sticky, so that a run that ends with both 0 pushed
every byte (R26) and met a right CRC byte at every CRCV (R25). -/

namespace Sys2Proof.Machine

theorem execAll_cons_inv {i : Instr} {is : List Instr} {s t : State} (h : execAll (i :: is) s = .next t) :
    ∃ u r, CommandEffect s i u r ∧ execAll is (u.respond r) = .next t := by
  obtain ⟨u, r, he⟩ := exists_commandEffect i s
  exact ⟨u, r, he, by rwa [execAll_cons he.exec_eq] at h⟩

theorem pushedBytes_cons (i : Instr) (is : List Instr) : pushedBytes (i :: is) = pushedBytes [i] ++ pushedBytes is := by
  cases i <;> rfl

theorem pushedBytes_append (xs ys : List Instr) : pushedBytes (xs ++ ys) = pushedBytes xs ++ pushedBytes ys := by
  induction xs with
  | nil => rfl
  | cons i rest ih => rw [List.cons_append, pushedBytes_cons, ih, pushedBytes_cons i rest, List.append_assoc]

theorem pushedBytes_eq_nil {is : List Instr} (h : ∀ i ∈ is, ∀ b, i ≠ .push b) : pushedBytes is = [] := by
  induction is with
  | nil => rfl
  | cons i rest ih =>
    obtain ⟨hi, hrest⟩ := List.forall_mem_cons.mp h
    rw [pushedBytes_cons, ih hrest, List.append_nil]
    cases i with
    | push b => exact absurd rfl (hi b)
    | _ => rfl

/-- A command other than CLR that leaves OVF 0 found it 0 and added exactly its byte to BUF (R24, R26). -/
theorem CommandEffect.buf_of_noOvf {s u : State} {i : Instr} {r : Response} (h : CommandEffect s i u r) (hi : i ≠ .clr)
    (ho : u.ovf = false) : s.ovf = false ∧ u.buf = s.buf ++ pushedBytes [i] := by
  cases h with
  | clr => exact absurd rfl hi
  | pushFull h => simp at ho
  | _ => simpa [pushedBytes] using ho

/-- Without CLR, a run that ends with OVF 0 has appended every byte pushed, in order. -/
theorem execAll_buf_of_noOvf {is : List Instr} {s t : State} (h : execAll is s = .next t) (hclr : ∀ i ∈ is, i ≠ .clr)
    (ho : t.ovf = false) : s.ovf = false ∧ t.buf = s.buf ++ pushedBytes is := by
  induction is generalizing s with
  | nil => cases h; simp [ho, pushedBytes]
  | cons i rest ih =>
    obtain ⟨hi, hrest⟩ := List.forall_mem_cons.mp hclr
    obtain ⟨u, r, he, h'⟩ := execAll_cons_inv h
    obtain ⟨hou, hbuf⟩ := ih h' hrest
    obtain ⟨hos, hu⟩ := he.buf_of_noOvf hi hou
    exact ⟨hos, by rw [hbuf, State.respond_buf, hu, List.append_assoc, ← pushedBytes_cons]⟩

/-- The bytes fed to the accumulator since the last CLR or CRCI, after one more command; `word` before it. -/
def crcWord (word : List Byte) : Instr → List Byte
  | .clr | .crci => []
  | .crcb b => word ++ [b]
  | _ => word

theorem verdicts_cons (word : List Byte) (i : Instr) (is : List Instr) :
    verdicts word (i :: is) = verdicts word [i] ++ verdicts (crcWord word i) is := by
  cases i <;> rfl

/-- Over commands that start no new CRC the word grows by exactly the bytes of the CRCBs. -/
theorem verdicts_append {xs : List Instr} (h : ∀ i ∈ xs, i.startsOver = false) (word : List Byte) (ys : List Instr) :
    verdicts word (xs ++ ys) = verdicts word xs ++ verdicts (word ++ checkedBytes xs) ys := by
  induction xs generalizing word with
  | nil => simp [verdicts, checkedBytes]
  | cons i rest ih =>
    obtain ⟨hi, hrest⟩ := List.forall_mem_cons.mp h
    have hword : crcWord word i ++ checkedBytes rest = word ++ checkedBytes (i :: rest) := by
      cases i with
      | clr | crci => cases hi
      | crcb b => simp [crcWord, checkedBytes]
      | _ => rfl
    rw [List.cons_append, verdicts_cons, ih hrest, hword, verdicts_cons word i rest, List.append_assoc]

theorem crc8Fold_append (a : Byte) (xs ys : List Byte) : crc8Fold a (xs ++ ys) = crc8Fold (crc8Fold a xs) ys := by
  induction xs generalizing a with
  | nil => rfl
  | cons b rest ih => exact ih (crc8Byte a b)

theorem verifyCrc8_iff {word : List Byte} {c : Byte} : verifyCrc8 word c = true ↔ computeCrc8 word = c :=
  beq_iff_eq

/-- If ACC is the CRC of the current word, it is so after any command (R94, R95, R98). -/
theorem CommandEffect.acc_eq_crc {s u : State} {i : Instr} {r : Response} {word : List Byte}
    (h : CommandEffect s i u r) (hacc : s.acc = computeCrc8 word) : u.acc = computeCrc8 (crcWord word i) := by
  cases h with
  | clr | crci => rfl
  | crcb b => simp [hacc, crcWord, computeCrc8, crc8Fold_append]
  | _ => exact hacc

/-- If ACC is the CRC of the current word, a command other than CLR leaves CRCERR 0 exactly when it found it 0 and is no CRCV
with a wrong byte (R25, R97). -/
theorem CommandEffect.crcErr_iff {s u : State} {i : Instr} {r : Response} {word : List Byte}
    (h : CommandEffect s i u r) (hi : i ≠ .clr) (hacc : s.acc = computeCrc8 word) :
    u.crcErr = false ↔ s.crcErr = false ∧ ∀ p ∈ verdicts word [i], verifyCrc8 p.1 p.2 = true := by
  cases h with
  | clr => exact absurd rfl hi
  | crcvMatch h => simp [verdicts, verifyCrc8_iff, ← hacc, h]
  | crcvMismatch h => simp [verdicts, verifyCrc8_iff, ← hacc, h]
  | _ => simp [verdicts]

/-- Without CLR, from ACC the CRC of the current word: CRCERR ends 0 exactly when it began 0 and every CRCV got the CRC of its
word. -/
theorem execAll_crcErr_iff {is : List Instr} {s t : State} {word : List Byte} (h : execAll is s = .next t)
    (hclr : ∀ i ∈ is, i ≠ .clr) (hacc : s.acc = computeCrc8 word) :
    t.crcErr = false ↔ s.crcErr = false ∧ ∀ p ∈ verdicts word is, verifyCrc8 p.1 p.2 = true := by
  induction is generalizing s word with
  | nil => cases h; simp [verdicts]
  | cons i rest ih =>
    obtain ⟨hi, hrest⟩ := List.forall_mem_cons.mp hclr
    obtain ⟨u, r, he, h'⟩ := execAll_cons_inv h
    rw [ih h' hrest (he.acc_eq_crc hacc), State.respond_crcErr, he.crcErr_iff hi hacc, verdicts_cons word i rest,
      and_assoc, List.forall_mem_append]

/-- What a decode declares of BUF: as many bytes as it reads, in a format it has (R111). -/
def decodeFits : Instr → Nat → Prop
  | .sx n m _, len => len = m ∧ n ≤ 8 * m
  | .em m _, len => len = m ∧ m ≤ 2
  | _, _ => False

/-- A decode that answers a value was admitted (R111). -/
theorem decode_value_admitted {d : Instr} {t : State} {v : Word} (hd : d.isDecode = true)
    (h : lastResponse (exec d t) = some (.ok v)) :
    t.ovf = false ∧ t.crcErr = false ∧ decodeFits d t.len := by
  cases d with
  | sx n m bo =>
    rcases hadm : t.decodeAdmit m (sxFormatOk n m) with _ | c
    · obtain ⟨ho, hl, hc, hf⟩ := State.decodeAdmit_eq_none.mp hadm
      exact ⟨ho, hc, hl, sxFormatOk_iff.mp hf⟩
    · simp [exec_sx, lastResponse, State.sxResponse, hadm] at h
  | em m bo =>
    rcases hadm : t.decodeAdmit m (emFormatOk m) with _ | c
    · obtain ⟨ho, hl, hc, hf⟩ := State.decodeAdmit_eq_none.mp hadm
      exact ⟨ho, hc, hl, emFormatOk_iff.mp hf⟩
    · simp [exec_em, lastResponse, State.emResponse, hadm] at h
  | _ => cases hd

/-- After a run without CLR that began with the reset values of ACC and BUF, a decode that answers a value reads exactly the
bytes pushed, and every verdict of the run was right. -/
theorem decode_value_of_run {is : List Instr} {s t : State} {d : Instr} {v : Word} (hacc : s.acc = Config.init)
    (hempty : s.buf = []) (hclr : ∀ i ∈ is, i ≠ .clr) (hrun : execAll is s = .next t) (hd : d.isDecode = true)
    (hv : lastResponse (exec d t) = some (.ok v)) :
    t.buf = pushedBytes is ∧ (∀ p ∈ verdicts [] is, verifyCrc8 p.1 p.2 = true) ∧ decodeFits d t.len := by
  obtain ⟨hovf, hcrc, hfits⟩ := decode_value_admitted hd hv
  have hbuf := (execAll_buf_of_noOvf hrun hclr hovf).2
  rw [hempty] at hbuf
  exact ⟨hbuf, ((execAll_crcErr_iff (word := []) hrun hclr hacc).mp hcrc).2, hfits⟩

theorem ne_clr_of_startsOver {i : Instr} (h : i.startsOver = false) : i ≠ .clr := by
  rintro rfl
  cases h

/-- Settles O53: the CRCV's verdict is on exactly the bytes pushed, and the decode saw OVF and CRCERR 0. -/
theorem noValueFromBadData : Obligations.NoValueFromBadData := by
  intro s t before after c d v hbefore hsame hafter hd hrun hv
  obtain ⟨_, _, ⟨⟩, hrun⟩ := execAll_cons_inv hrun
  have hclr : ∀ i ∈ before ++ .crcv c :: after, i ≠ .clr :=
    List.forall_mem_append.mpr ⟨fun i hi => ne_clr_of_startsOver (hbefore i hi),
      List.forall_mem_cons.mpr ⟨nofun, fun i hi => (hafter i hi).1⟩⟩
  have hpushed : pushedBytes (before ++ .crcv c :: after) = pushedBytes before := by
    rw [pushedBytes_append, pushedBytes_cons, pushedBytes_eq_nil fun i hi => (hafter i hi).2]
    exact List.append_nil _
  have hasked : (pushedBytes before, c) ∈ verdicts [] (before ++ .crcv c :: after) := by
    rw [verdicts_append hbefore, List.nil_append, ← hsame]
    exact List.mem_append_right _ List.mem_cons_self
  obtain ⟨hbuf, hverdicts, hfits⟩ := decode_value_of_run rfl rfl hclr hrun hd hv
  rw [hpushed] at hbuf
  refine ⟨hbuf, hverdicts _ hasked, ?_⟩
  rw [← hbuf]
  cases d <;> exact hfits

end Sys2Proof.Machine
end

section
/-! PROOFS. The host's record of a transaction (R175 to R178, log entry 17), for commands without CLR whose bytes all carry a
CRC: what it holds as pushed is what was pushed, and what it holds as verified is a sequence of words with verdicts. -/

namespace Sys2Proof.Machine

/-- The record after one more command, every byte pushed carrying a CRC. -/
def CheckRecord.afterCommand (r : CheckRecord) (i : Instr) : CheckRecord := r.after (fun _ => true) (.command i)

theorem foldl_after_commands (is : List Instr) (r : CheckRecord) :
    (is.map .command).foldl (CheckRecord.after fun _ => true) r = is.foldl CheckRecord.afterCommand r :=
  List.foldl_map

theorem CheckRecord.afterCommand_pushed (r : CheckRecord) {i : Instr} (hi : i ≠ .clr) :
    (r.afterCommand i).pushed = r.pushed ++ pushedBytes [i] ∧ (r.afterCommand i).dropped = r.dropped := by
  cases i with
  | clr => exact absurd rfl hi
  | _ => simp [afterCommand, after, pushedBytes]

theorem CheckRecord.foldl_pushed {is : List Instr} (hclr : ∀ i ∈ is, i ≠ .clr) (r : CheckRecord) :
    (is.foldl afterCommand r).pushed = r.pushed ++ pushedBytes is ∧
      (is.foldl afterCommand r).dropped = r.dropped := by
  induction is generalizing r with
  | nil => simp [pushedBytes]
  | cons i rest ih =>
    obtain ⟨hi, hrest⟩ := List.forall_mem_cons.mp hclr
    obtain ⟨hp, hd⟩ := r.afterCommand_pushed hi
    obtain ⟨hp', hd'⟩ := ih hrest (r.afterCommand i)
    rw [hp, List.append_assoc, ← pushedBytes_cons] at hp'
    exact ⟨hp', hd'.trans hd⟩

/-- The duty R178 holds of what follows a part of the transaction, looking back on that part. -/
theorem verifiesBeforeDecode_append {carriesCrc : Nat → Bool} {r : CheckRecord} {xs ys : List HostEvent}
    (h : verifiesBeforeDecode carriesCrc r (xs ++ ys) = true) :
    verifiesBeforeDecode carriesCrc (xs.foldl (CheckRecord.after carriesCrc) r) ys = true := by
  induction xs generalizing r with
  | nil => exact h
  | cons e rest ih => exact ih (Bool.and_eq_true_iff.mp h).2

/-- The words verified: with R176 kept, the record's unverified word is the accumulator's word while ACC was brought to 0xFF since
the last CRCV (`ready`) and is empty after a CRCV, so the record adds to `verified` exactly words with a verdict. -/
theorem exists_verified_words {is : List Instr} {later : List HostEvent} {ready : Bool} {r : CheckRecord}
    {word : List Byte} (hclr : ∀ i ∈ is, i ≠ .clr)
    (hinit : initBeforeEachWord ready (is.map .command ++ later) = true)
    (hword : r.word = if ready then word else []) :
    ∃ words : List (List Byte), (is.foldl CheckRecord.afterCommand r).verified = r.verified ++ words.flatten ∧
      ∀ w ∈ words, ∃ c, (w, c) ∈ verdicts word is := by
  induction is generalizing ready r word with
  | nil => exact ⟨[], by simp, nofun⟩
  | cons i rest ih =>
    obtain ⟨hi, hrest⟩ := List.forall_mem_cons.mp hclr
    cases i with
    | clr => exact absurd rfl hi
    | crci => exact ih (r := r.afterCommand .crci) hrest hinit rfl
    | crcb b =>
      obtain ⟨rfl, hinit⟩ := Bool.and_eq_true_iff.mp hinit
      exact ih (r := r.afterCommand (.crcb b)) hrest hinit (congrArg (· ++ [b]) hword)
    | crcv c =>
      obtain ⟨words, hverified, hmem⟩ := ih (r := r.afterCommand (.crcv c)) (word := word) hrest hinit rfl
      have hlater : ∀ w ∈ words, ∃ c', (w, c') ∈ verdicts word (.crcv c :: rest) := fun w hw =>
        (hmem w hw).imp fun _ => List.mem_cons_of_mem _
      have hverified' := hverified.trans (List.append_assoc r.verified r.word words.flatten)
      rw [hword] at hverified'
      cases ready with
      | false => exact ⟨words, hverified', hlater⟩
      | true => exact ⟨word :: words, hverified', List.forall_mem_cons.mpr ⟨⟨c, List.mem_cons_self⟩, hlater⟩⟩
    | rdst | crcr | push | sx | em => exact ih (r := r.afterCommand _) hrest hinit hword

/-- Settles O57: the bytes pushed begin the bytes verified (R178), or are all of them when nothing follows the decode
(R177), and the bytes verified are words whose verdicts were right, since the decode saw CRCERR 0. -/
theorem dutifulDecodeReadsVerifiedWords : Obligations.DutifulDecodeReadsVerifiedWords := by
  intro s t is d rest v hs hclr hduties hd hrun hv
  obtain ⟨hacc, -, -, hlen, -⟩ := hs
  obtain ⟨hbuf, hverdicts, -⟩ := decode_value_of_run hacc (List.length_eq_zero_iff.mp hlen) hclr hrun hd hv
  simp only [keepsHostDuties, Bool.and_eq_true] at hduties
  obtain ⟨⟨⟨-, hinit⟩, hboth⟩, hbefore⟩ := hduties
  obtain ⟨words, hverified, hmem⟩ := exists_verified_words (r := .start) (word := []) hclr hinit rfl
  obtain ⟨hpushed, hdropped⟩ := CheckRecord.start.foldl_pushed hclr
  rw [show CheckRecord.start.verified = [] from rfl, List.nil_append] at hverified
  rw [show CheckRecord.start.pushed = [] from rfl, List.nil_append, ← hbuf] at hpushed
  refine ⟨hbuf, words, ?_, ?_, fun w hw => (hmem w hw).imp fun c hc => ⟨hc, hverdicts _ hc⟩⟩
  · have hdecode := (Bool.and_eq_true_iff.mp (verifiesBeforeDecode_append hbefore)).1
    rw [foldl_after_commands, HostEvent.isDecode, hd, Bool.not_true, Bool.false_or, CheckRecord.bufVerified, hpushed,
      hdropped, hverified] at hdecode
    exact List.isPrefixOf_iff_prefix.mp hdecode
  · rintro rfl
    have hsame : (is.foldl CheckRecord.afterCommand .start).pushed =
        (is.foldl CheckRecord.afterCommand .start).verified := by
      rw [feedsBothPaths, List.foldl_append, foldl_after_commands, beq_iff_eq] at hboth
      cases d with
      | sx | em => exact hboth
      | _ => cases hd
    rw [← hverified, ← hpushed, hsame]

end Sys2Proof.Machine
end

section
/-! PROOFS. Everything a step can do, said once in terms of `CommandEffect`; the obligations on the registers over every step
(R24 to R26, R29) follow from it. Also the write sets of the commands (R31) and the reset values (R30). -/

namespace Sys2Proof.Machine

/-- `StepEffect s t`: with what the host presents in `s`, a step of the block leads to `t` (R9, R69, R170). -/
inductive StepEffect (s : State) : State → Prop
  | idle (h : s.inputs = []) : StepEffect s s
  | reset {rest : List HostInput} (h : s.inputs = .rst :: rest) :
      StepEffect s { s with inputs := rest }.resetRegisters
  | illegal {w : Cmd} {rest : List HostInput} {why : IllegalWord} (h : s.inputs = .cmd w :: rest)
      (hd : decode w = .error why) : StepEffect s ({ s with inputs := rest }.respond (.fail .illegal))
  | command {w : Cmd} {rest : List HostInput} {i : Instr} {u : State} {r : Response} (h : s.inputs = .cmd w :: rest)
      (hd : decode w = .ok i) (he : CommandEffect s i u r) : StepEffect s ({ u with inputs := rest }.respond r)

/-- Every step of the model is one of these. -/
theorem stepEffect_of_step {s t : State} (h : step s = .next t) : StepEffect s t := by
  rcases hin : s.inputs with _ | ⟨w | _, rest⟩
  · rw [step_idle hin] at h
    cases h
    exact .idle hin
  · cases hd : decode w with
    | error why =>
      rw [step_illegal hin hd] at h
      cases h
      exact .illegal hin hd
    | ok i =>
      obtain ⟨u, r, he⟩ := exists_commandEffect i s
      rw [step_legal hin hd, (he.withInputs rest).exec_eq] at h
      cases h
      exact .command hin hd he
  · rw [step_rst hin] at h
    cases h
    exact .reset hin

theorem State.inv_iff {s : State} : s.Inv ↔ s.len ≤ 4 ∧ (s.ovf = true → s.len = 4) := by
  rw [State.Inv, Memory.wf_iff, State.len]

/-- A refused PUSH sets OVF only with LEN = 4, and an accepted one met LEN below 4, where OVF is 0 (R29, R130). -/
theorem CommandEffect.keeps_inv {s u : State} {i : Instr} {r : Response} (h : CommandEffect s i u r) (hs : s.Inv) :
    u.Inv := by
  cases h with
  | clr => exact ⟨rfl, nofun⟩
  | pushFull h => exact ⟨hs.1, fun _ => h⟩
  | pushRoom h =>
    obtain ⟨hlen, hovf⟩ := State.inv_iff.mp hs
    rw [State.inv_iff, State.bufAppend_len, State.bufAppend_ovf]
    exact ⟨by omega, fun ho => absurd (hovf ho) h⟩
  | _ => exact hs

/-- Settles O39: BUF and OVF change only by reset and by commands, which keep the invariant. -/
theorem stepKeepsInvariant : Obligations.StepKeepsInvariant := by
  intro s t hs hstep
  cases stepEffect_of_step hstep with
  | idle | illegal => exact hs
  | reset => exact ⟨rfl, nofun⟩
  | command _ _ he => exact he.keeps_inv hs

/-- Settles O34, by the effect of each command. -/
theorem commandWriteSets : Obligations.CommandWriteSets := by
  intro i s t h
  obtain ⟨u, r, he, rfl⟩ := exec_eq_next_iff.mp h
  cases he <;> simp [Instr.mnemonic]

/-- What a command makes of CRCERR (R25, R97). -/
theorem CommandEffect.crcErr_set_iff {s u : State} {i : Instr} {r : Response} (h : CommandEffect s i u r) :
    u.crcErr = true ↔ i ≠ .clr ∧ (s.crcErr = true ∨ ∃ b, i = .crcv b ∧ s.acc ≠ b) := by
  cases h with
  | crcvMatch h | crcvMismatch h => simp [h]
  | _ => simp

/-- What a command makes of OVF (R26, R130). -/
theorem CommandEffect.ovf_set_iff {s u : State} {i : Instr} {r : Response} (h : CommandEffect s i u r) :
    u.ovf = true ↔ i ≠ .clr ∧ (s.ovf = true ∨ ∃ b, i = .push b ∧ s.len = 4) := by
  cases h with
  | pushRoom h | pushFull h => simp [h]
  | _ => simp

/-- What a command makes of BUF (R24). -/
theorem CommandEffect.buf_cases {s u : State} {i : Instr} {r : Response} (h : CommandEffect s i u r) :
    u.buf = s.buf ∨ (∃ b, i = .push b ∧ s.len ≠ 4 ∧ u.buf = s.buf ++ [b]) ∨ (u.buf = [] ∧ i = .clr) := by
  cases h with
  | clr => exact .inr (.inr ⟨rfl, rfl⟩)
  | pushRoom h => exact .inr (.inl ⟨_, rfl, h, rfl⟩)
  | _ => exact .inl rfl

/-- Settles O35: CRCERR stays but for a reset or a command, of which `CommandEffect.crcErr_set_iff` speaks. -/
theorem crcErrSetAndCleared : Obligations.CrcErrSetAndCleared := by
  intro s t hstep
  cases stepEffect_of_step hstep with
  | idle h | reset h => simp [h]
  | illegal h hd => simp [h, hd]
  | command h hd he => simp [h, hd, he.crcErr_set_iff]

/-- Settles O36: OVF stays but for a reset or a command, of which `CommandEffect.ovf_set_iff` speaks. -/
theorem ovfSetAndCleared : Obligations.OvfSetAndCleared := by
  intro s t hstep
  cases stepEffect_of_step hstep with
  | idle h | reset h => simp [h]
  | illegal h hd => simp [h, hd]
  | command h hd he => simp [h, hd, he.ovf_set_iff]

/-- Settles O37: BUF stays but for a reset or a command, of which `CommandEffect.buf_cases` speaks. -/
theorem bufferGrowsOrEmpties : Obligations.BufferGrowsOrEmpties := by
  intro s t hstep
  cases stepEffect_of_step hstep with
  | idle | illegal => exact .inl rfl
  | reset h => exact .inr (.inr ⟨rfl, .inl ⟨_, h⟩⟩)
  | command h hd he =>
    rcases he.buf_cases with hb | ⟨b, rfl, hlen, hb⟩ | ⟨hb, rfl⟩
    · exact .inl hb
    · exact .inr (.inl ⟨_, _, b, h, hd, hlen, hb⟩)
    · exact .inr (.inr ⟨hb, .inr ⟨_, _, h, hd⟩⟩)

/-- Settles O13. -/
theorem resetValues : Obligations.ResetValues :=
  ⟨rfl, rfl, fun _ => rfl, rfl, rfl⟩

/-- Settles O38. -/
theorem invariantAtReset : Obligations.InvariantAtReset :=
  ⟨Memory.wf_empty, nofun⟩

end Sys2Proof.Machine
end

section
/-! PROOFS. What holds of whole runs: the invariant of every state reached from reset (R29), and CRCERR as the sum of the
verdicts since CLR (R25). -/

namespace Sys2Proof.Machine

/-- What every step keeps holds at the end of a run. -/
theorem runSteps_keeps {P : State → Prop} (hstep : ∀ s t, P s → step s = .next t → P t) {k : Nat} {s t : State}
    (hs : P s) (h : runSteps k s = .next t) : P t := by
  induction k generalizing s with
  | zero => cases h; exact hs
  | succ k ih =>
    obtain ⟨u, hu, -⟩ := stepAlwaysGoesOn s
    rw [runSteps_succ hu] at h
    exact ih (hstep s u hs hu) h

/-- Settles O40: the invariant holds at reset, whatever is presented, and every step keeps it. -/
theorem reachableStatesMeetInvariant : Obligations.ReachableStatesMeetInvariant := by
  intro ws t h
  have hstart : (State.reset.presentAll ws).Inv := invariantAtReset
  exact State.inv_iff.mp (runSteps_keeps stepKeepsInvariant hstart h)

/-- Any list of commands is executed to its end (R9, R148). -/
theorem exists_execAll (is : List Instr) (s : State) : ∃ t, execAll is s = .next t := by
  induction is generalizing s with
  | nil => exact ⟨s, rfl⟩
  | cons i rest ih =>
    obtain ⟨u, _, hu, -⟩ := exec_answersOnce i s
    rw [execAll_cons hu]
    exact ih u

/-- Settles O52: after CLR, ACC is the CRC of the empty word and CRCERR is 0. -/
theorem crcErrSumsUpVerdicts : Obligations.CrcErrSumsUpVerdicts := by
  intro is s hclr
  rw [execAll_cons (exec_clr s)]
  obtain ⟨t, ht⟩ := exists_execAll is (s.resetRegisters.respond (.ok 0#32))
  exact ⟨t, ht, (execAll_crcErr_iff (word := []) ht hclr rfl).trans (and_iff_right rfl)⟩

end Sys2Proof.Machine
end

section
/-! PROOFS. What the responses show of the state (R28): CRCR shows ACC, RDST the flags and LEN, an SX as wide as the whole
buffer shows BUF. -/

namespace Sys2Proof.Machine

theorem CommandEffect.lastResponse_eq {s u : State} {i : Instr} {r : Response} (h : CommandEffect s i u r) :
    lastResponse (exec i s) = some r := by
  simp [h.exec_eq, lastResponse]

/-- The status image as a number (R27, R136). -/
theorem State.statusImage_toNat (s : State) :
    s.statusImage.toNat = s.len % 8 + 8 * s.crcErr.toNat + 16 * s.ovf.toNat := by
  have hlen : s.len % 2 ^ 3 < 2 ^ 3 := Nat.mod_lt _ (by decide)
  have := s.crcErr.toNat_lt
  have := s.ovf.toNat_lt
  rw [State.statusImage, BitVec.toNat_setWidth, BitVec.toNat_append, BitVec.toNat_append, BitVec.toNat_ofNat,
    BitVec.toNat_ofBool, BitVec.toNat_ofBool, ← Nat.shiftLeft_add_eq_or_of_lt hlen,
    ← Nat.shiftLeft_add_eq_or_of_lt (b := s.crcErr.toNat) (by omega), Nat.shiftLeft_eq, Nat.shiftLeft_eq]
  omega

/-- Under the invariant's bound LEN fits its three bits, and the image shows each field whole. -/
theorem State.statusImage_inj {s s' : State} (hs : s.len ≤ 4) (hs' : s'.len ≤ 4) (h : s.statusImage = s'.statusImage) :
    s.len = s'.len ∧ s.crcErr = s'.crcErr ∧ s.ovf = s'.ovf := by
  have h := congrArg BitVec.toNat h
  rw [State.statusImage_toNat, State.statusImage_toNat] at h
  have := s.crcErr.toNat_lt
  have := s'.crcErr.toNat_lt
  have hinj : Function.Injective Bool.toNat := Function.LeftInverse.injective Bool.ofNat_toNat
  exact ⟨by omega, hinj (by omega), hinj (by omega)⟩

theorem sext32_inj {f g n : Nat} (hn : n ≤ 32) (hf : f < 2 ^ n) (hg : g < 2 ^ n) (h : sext32 f n = sext32 g n) :
    f = g := by
  have h := congrArg BitVec.toInt h
  rw [sext32, sext32, BitVec.toInt_signExtend_of_le hn, BitVec.toInt_signExtend_of_le hn, BitVec.toInt_inj] at h
  have h := congrArg BitVec.toNat h
  rwa [BitVec.toNat_ofNat, BitVec.toNat_ofNat, Nat.mod_eq_of_lt hf, Nat.mod_eq_of_lt hg] at h

theorem bits_eq_self {v n : Nat} (h : v < 2 ^ n) : bits v (n - 1) 0 = v := by
  rw [bits, Nat.shiftRight_zero]
  exact Nat.mod_eq_of_lt (h.trans_le (Nat.pow_le_pow_right (by decide) (by omega)))

/-- `BufRead` loses no byte (R43). -/
theorem State.bufRead_le_inj {s s' : State} {m m' : Nat} (hlen : s.len = s'.len)
    (h : s.bufRead m .le = s'.bufRead m' .le) : s.buf = s'.buf := by
  rw [State.bufRead_le, State.bufRead_le] at h
  have digit : ∀ l : List Byte, ∀ x ∈ l.map BitVec.toNat, x < 256 := fun l =>
    List.forall_mem_map.mpr fun b _ => b.isLt
  have h := Nat.ofDigits_inj_of_len_eq (by decide) (by simpa [State.len] using hlen) (digit _) (digit _) h
  exact List.map_injective_iff.mpr BitVec.toNat_injective h

theorem State.bufRead_lt_two_pow {s : State} {m : Nat} (hlen : s.len = m) (bo : ByteOrder) :
    s.bufRead m bo < 2 ^ (8 * m) := by
  rw [pow_mul]
  exact State.bufRead_lt hlen bo

/-- SX over the whole buffer: admitted while both flags are 0, and as wide as the value read. -/
theorem State.lastResponse_sx_whole {s : State} {m : Nat} (hlen : s.len = m) (hc : s.crcErr = false)
    (ho : s.ovf = false) :
    lastResponse (exec (.sx (8 * m) m .le) s) = some (.ok (sext32 (s.bufRead m .le) (8 * m))) := by
  have hadm : s.decodeAdmit m (sxFormatOk (8 * m) m) = none :=
    State.decodeAdmit_eq_none.mpr ⟨ho, hlen, hc, sxFormatOk_iff.mpr le_rfl⟩
  rw [(CommandEffect.sx _ _ _).lastResponse_eq, State.sxResponse, hadm]
  simp only [State.sxValue, bits_eq_self (State.bufRead_lt_two_pow hlen .le)]

/-- Settles O41: CRCR's answer determines ACC, RDST's the flags and LEN, and SX's over the whole buffer determines BUF. -/
theorem stateIsObservable : Obligations.StateIsObservable := by
  intro s s' hs hs' _ hcrcr hrdst
  rw [CommandEffect.crcr.lastResponse_eq, CommandEffect.crcr.lastResponse_eq, Option.some_inj, Response.ok.injEq]
    at hcrcr
  rw [CommandEffect.rdst.lastResponse_eq, CommandEffect.rdst.lastResponse_eq, Option.some_inj, Response.ok.injEq]
    at hrdst
  have hacc : s.acc = s'.acc := by simpa using congrArg (BitVec.setWidth 8) hcrcr
  have hlen4 := (State.inv_iff.mp hs).1
  obtain ⟨hlen, hc, ho⟩ := State.statusImage_inj hlen4 (State.inv_iff.mp hs').1 hrdst
  refine ⟨⟨hacc, hlen, hc, ho⟩, fun hc0 ho0 hsx => ?_⟩
  rw [State.lastResponse_sx_whole rfl hc0 ho0, State.lastResponse_sx_whole hlen.symm (hc ▸ hc0) (ho ▸ ho0),
    Option.some_inj, Response.ok.injEq] at hsx
  have hread : s.bufRead s.len .le = s'.bufRead s.len .le :=
    sext32_inj (by omega) (State.bufRead_lt_two_pow rfl .le) (State.bufRead_lt_two_pow hlen.symm .le) hsx
  exact State.bufRead_le_inj hlen hread

end Sys2Proof.Machine
end

section
/-! PROOFS. What `BufRead` assembles (R43): one sum over the indices of BUF, whatever the byte order. -/

namespace Sys2Proof.Machine

/-- The bridge between the model's list of indexed bytes and a sum over indices; `d` stands past the end of the list. -/
theorem sum_map_zipIdx {α : Type} (l : List α) (d : α) (f : α × Nat → Nat) :
    (l.zipIdx.map f).sum = ∑ i ∈ Finset.range l.length, f (l[i]?.getD d, i) := by
  have hmap : l.zipIdx.map f = (List.range l.length).map fun i => f (l[i]?.getD d, i) :=
    List.ext_getElem (by simp) fun i h _ => by
      have hi : i < l.length := by simpa using h
      simp [hi]
  rw [hmap]
  rfl

/-- Only the place of a byte depends on the byte order (R43). -/
theorem State.bufRead_eq_sum {s : State} {m : Nat} (hlen : s.len = m) (bo : ByteOrder) :
    s.bufRead m bo = ∑ i ∈ Finset.range m, ((s.bufByte i).getD 0#8).toNat * 2 ^ byteShift m bo i := by
  subst hlen
  simp only [State.bufRead, sum_map_zipIdx _ 0#8, Nat.shiftLeft_eq, State.len, State.bufByte]

/-- The only byte of a one-byte buffer stands at bit 0 in either order (R43). -/
theorem State.bufRead_one {s : State} (hlen : s.len = 1) (bo : ByteOrder) :
    s.bufRead 1 bo = ((s.bufByte 0).getD 0#8).toNat := by
  cases bo <;> simp [State.bufRead_eq_sum hlen, byteShift]

/-- Settles O23: both orders are `State.bufRead_eq_sum`, and a single byte has one place. -/
theorem bufReadAssemblesBytes : Obligations.BufReadAssemblesBytes := by
  intro s m hlen _ _
  refine ⟨State.bufRead_eq_sum hlen .le, State.bufRead_eq_sum hlen .be, State.bufRead_lt_two_pow hlen .le,
    State.bufRead_lt_two_pow hlen .be, ?_⟩
  rintro rfl
  exact (State.bufRead_one hlen .le).trans (State.bufRead_one hlen .be).symm

end Sys2Proof.Machine
end

section
/-! PROOFS. Encoding and decoding as arithmetic on the word (R62 to R69): what each field of a word is as a number, and
`ReadAs`, which words are read as which command. Every obligation on the decoder follows from `decode_eq_ok_iff`. -/

namespace Sys2Proof

theorem toNat_append_eq_sum {m n : Nat} (x : BitVec m) (y : BitVec n) :
    (x ++ y).toNat = x.toNat * 2 ^ n + y.toNat := by
  rw [BitVec.toNat_append, ← Nat.shiftLeft_add_eq_or_of_lt y.isLt, Nat.shiftLeft_eq]

theorem encodeZ_toNat (op : BitVec 4) : (encodeZ op).toNat = 4096 * op.toNat := by
  simp only [encodeZ, toNat_append_eq_sum, BitVec.toNat_ofNat]
  omega

theorem encodeB_toNat (op : BitVec 4) (b : Byte) : (encodeB op b).toNat = 4096 * op.toNat + b.toNat := by
  simp only [encodeB, toNat_append_eq_sum, BitVec.toNat_ofNat]
  omega

theorem encodeF_toNat (op : BitVec 4) {n m : Nat} (bo : ByteOrder) (hn : wfFieldWidth n = true)
    (hm : wfByteCount m = true) :
    (encodeF op n m bo).toNat = 4096 * op.toNat + 8 * (n - 1) + 2 * (m - 1) + bo.bit.toNat := by
  have hncode := Machine.fieldWidth_coding hn
  have hmcode := Machine.byteCount_coding hm
  simp only [encodeF, toNat_append_eq_sum, BitVec.toNat_ofNat] at hncode hmcode ⊢
  omega

theorem encodeG_toNat (op : BitVec 4) {m : Nat} (bo : ByteOrder) (hm : wfByteCount m = true) :
    (encodeG op m bo).toNat = 4096 * op.toNat + 2 * (m - 1) + bo.bit.toNat := by
  have hmcode := Machine.byteCount_coding hm
  simp only [encodeG, toNat_append_eq_sum, BitVec.toNat_ofNat] at hmcode ⊢
  omega

/-- The assembler's table (R73) gives the encoder's word, format by format. -/
theorem encode_toNat {i : Instr} (h : i.wellFormed = true) : (encode i).toNat = assemblerWord i := by
  cases i with
  | clr | rdst | crci | crcr => exact encodeZ_toNat _
  | crcb b | crcv b | push b => exact encodeB_toNat _ b
  | sx n m bo =>
    obtain ⟨hn, hm⟩ := Bool.and_eq_true_iff.mp h
    rw [encode, encodeF_toNat _ bo hn hm, assemblerWord, Nat.shiftLeft_eq, Nat.shiftLeft_eq, BitVec.toNat_ofNat]
    omega
  | em m bo =>
    rw [encode, encodeG_toNat _ bo h, assemblerWord, Nat.shiftLeft_eq, BitVec.toNat_ofNat]
    omega

theorem opField_toNat (w : Cmd) : (opField w).toNat = w.toNat / 4096 := by
  rw [opField, BitVec.extractLsb'_toNat, Nat.shiftRight_eq_div_pow]
  omega

theorem imm8Field_toNat (w : Cmd) : (imm8Field w).toNat = w.toNat % 256 := by
  rw [imm8Field, BitVec.extractLsb'_toNat, Nat.shiftRight_zero]

theorem fieldWidthField_eq (w : Cmd) : fieldWidthField w = w.toNat / 8 % 32 + 1 := by
  rw [fieldWidthField, BitVec.extractLsb'_toNat, Nat.shiftRight_eq_div_pow]

theorem byteCountField_eq (w : Cmd) : byteCountField w = w.toNat / 2 % 4 + 1 := by
  rw [byteCountField, BitVec.extractLsb'_toNat, Nat.shiftRight_eq_div_pow]

theorem byteOrderField_eq (w : Cmd) : byteOrderField w = if w.toNat % 2 = 1 then .be else .le := by
  simp [byteOrderField, BitVec.getLsbD, Nat.testBit_zero]

theorem byteOrderField_eq_be_iff (w : Cmd) : byteOrderField w = .be ↔ w.toNat % 2 = 1 := by
  simp [byteOrderField_eq]

theorem byteOrderField_bit_toNat (w : Cmd) : (byteOrderField w).bit.toNat = w.toNat % 2 := by
  rcases Nat.mod_two_eq_zero_or_one w.toNat with h | h <;> simp [byteOrderField_eq, ByteOrder.bit, h]

/-- `ReadAs w i`: above its operands `w` has the bits that fix the row of `i` in the opcode map (R64), and the operands of
`i` are the fields of `w` (R67). -/
inductive ReadAs (w : Cmd) : Instr → Prop
  | clr (h : w.toNat = 0x1000) : ReadAs w .clr
  | rdst (h : w.toNat = 0x2000) : ReadAs w .rdst
  | crci (h : w.toNat = 0x4000) : ReadAs w .crci
  | crcb (h : w.toNat / 256 = 0x50) : ReadAs w (.crcb (imm8Field w))
  | crcr (h : w.toNat = 0x6000) : ReadAs w .crcr
  | crcv (h : w.toNat / 256 = 0x70) : ReadAs w (.crcv (imm8Field w))
  | push (h : w.toNat / 256 = 0x80) : ReadAs w (.push (imm8Field w))
  | sx (h : w.toNat / 256 = 0xA0) : ReadAs w (.sx (fieldWidthField w) (byteCountField w) (byteOrderField w))
  | em (h : w.toNat / 8 = 0x1600) : ReadAs w (.em (byteCountField w) (byteOrderField w))

theorem requireZero_eq_ok {k : Nat} {zeros : BitVec k} {i j : Instr} (h : requireZero zeros i = .ok j) :
    zeros.toNat = 0 ∧ i = j := by
  unfold requireZero at h
  split at h
  case isTrue hz => cases h; exact ⟨by simp [hz], rfl⟩
  case isFalse => cases h

/-- An accepted word consists of its opcode and its must-be-zero field, which is zero, above the operands. -/
theorem toNat_div_of_requireZero {k lo : Nat} {w : Cmd} {op : BitVec 4} {i j : Instr} (hk : lo + k = 12)
    (hop : opField w = op) (h : requireZero (w.extractLsb' lo k) i = .ok j) :
    w.toNat / 2 ^ lo = op.toNat * 2 ^ k ∧ i = j := by
  obtain ⟨hz, rfl⟩ := requireZero_eq_ok h
  rw [BitVec.extractLsb'_toNat, Nat.shiftRight_eq_div_pow] at hz
  have hop := (opField_toNat w).symm.trans (congrArg BitVec.toNat hop)
  have hpow : 4096 = 2 ^ lo * 2 ^ k := by rw [← pow_add, hk]; rfl
  rw [hpow, ← Nat.div_div_eq_div_mul] at hop
  exact ⟨by rw [← hop, Nat.div_mul_cancel (Nat.dvd_of_mod_eq_zero hz)], rfl⟩

theorem readAs_of_decode {w : Cmd} {i : Instr} (h : decode w = .ok i) : ReadAs w i := by
  unfold decode at h
  split at h
  case h_10 => cases h
  all_goals
    rename_i hop
    obtain ⟨hw, rfl⟩ := toNat_div_of_requireZero (by decide) hop h
    constructor
    simpa using hw

theorem byteCountField_wf (w : Cmd) : wfByteCount (byteCountField w) = true := by
  rw [Machine.wfByteCount_iff, byteCountField_eq]
  omega

theorem fieldWidthField_wf (w : Cmd) : wfFieldWidth (fieldWidthField w) = true := by
  rw [Machine.wfFieldWidth_iff, fieldWidthField_eq]
  omega

theorem ReadAs.wellFormed {w : Cmd} {i : Instr} (h : ReadAs w i) : i.wellFormed = true := by
  cases h with
  | sx h => exact Bool.and_eq_true_iff.mpr ⟨fieldWidthField_wf w, byteCountField_wf w⟩
  | em h => exact byteCountField_wf w
  | _ => rfl

theorem ReadAs.assemblerWord_eq {w : Cmd} {i : Instr} (h : ReadAs w i) : assemblerWord i = w.toNat := by
  cases h with
  | clr h | rdst h | crci h | crcr h => exact h.symm
  | crcb h | crcv h | push h =>
    rw [assemblerWord, imm8Field_toNat]
    omega
  | sx h =>
    rw [assemblerWord, fieldWidthField_eq, byteCountField_eq, byteOrderField_bit_toNat, Nat.shiftLeft_eq,
      Nat.shiftLeft_eq]
    omega
  | em h =>
    rw [assemblerWord, byteCountField_eq, byteOrderField_bit_toNat, Nat.shiftLeft_eq]
    omega

theorem ReadAs.encode_eq {w : Cmd} {i : Instr} (h : ReadAs w i) : encode i = w :=
  BitVec.eq_of_toNat_eq ((encode_toNat h.wellFormed).trans h.assemblerWord_eq)

/-- What the decoder accepts, and as what (R68). Backwards, `w` is the word of a well-formed command. -/
theorem decode_eq_ok_iff {w : Cmd} {i : Instr} : decode w = .ok i ↔ ReadAs w i := by
  refine ⟨readAs_of_decode, fun h => ?_⟩
  conv_lhs => rw [← h.encode_eq]
  exact Machine.decode_encode h.wellFormed

/-- What the decoder rejects (R69). -/
theorem exists_decode_eq_error_iff {w : Cmd} : (∃ why, decode w = .error why) ↔ ¬ ∃ i, ReadAs w i := by
  simp only [← decode_eq_ok_iff]
  cases decode w <;> simp

theorem exists_readAs_iff {w : Cmd} :
    (∃ i, ReadAs w i) ↔ w.toNat ∈ [0x1000, 0x2000, 0x4000, 0x6000] ∨ w.toNat / 256 ∈ [0x50, 0x70, 0x80, 0xA0] ∨
      w.toNat / 8 = 0x1600 := by
  simp only [List.mem_cons, List.not_mem_nil, or_false]
  constructor
  · rintro ⟨i, h⟩
    cases h <;> simp [*]
  · rintro ((h | h | h | h) | (h | h | h | h) | h)
    · exact ⟨_, .clr h⟩
    · exact ⟨_, .rdst h⟩
    · exact ⟨_, .crci h⟩
    · exact ⟨_, .crcr h⟩
    · exact ⟨_, .crcb h⟩
    · exact ⟨_, .crcv h⟩
    · exact ⟨_, .push h⟩
    · exact ⟨_, .sx h⟩
    · exact ⟨_, .em h⟩

/-- A mask of ones from bit `k` up compares the bits from `k` up (R64). -/
theorem and_highMask_eq_iff (w : Cmd) (k v : Nat) (hv : v * 2 ^ k < 2 ^ 16) :
    w &&& BitVec.allOnes 16 <<< k = BitVec.ofNat 16 (v * 2 ^ k) ↔ w.toNat / 2 ^ k = v := by
  have hw : w.toNat / 2 ^ k * 2 ^ k < 2 ^ 16 := (Nat.div_mul_le_self _ _).trans_lt w.isLt
  rw [← BitVec.shiftLeft_ushiftRight, ← BitVec.toNat_inj, BitVec.toNat_shiftLeft, BitVec.toNat_ushiftRight,
    BitVec.toNat_ofNat, Nat.shiftLeft_eq, Nat.shiftRight_eq_div_pow, Nat.mod_eq_of_lt hw, Nat.mod_eq_of_lt hv]
  exact Nat.mul_left_inj (by positivity)

theorem and_fullMask_eq_iff (w v : Cmd) : w &&& 0xFFFF#16 = v ↔ w.toNat = v.toNat := by
  rw [BitVec.toNat_inj, show 0xFFFF#16 = BitVec.allOnes 16 from rfl, BitVec.and_allOnes]

/-- Settles O1: `Machine.decode_encode` goes through the formats, each over all its operands. -/
theorem decodeEncodeRoundTrip : Obligations.DecodeEncodeRoundTrip :=
  fun _ h => Machine.decode_encode h

/-- Settles O2: a word read as a command is that command's word. -/
theorem encodeDecodeRoundTrip : Obligations.EncodeDecodeRoundTrip := by
  intro w i h
  have hread := decode_eq_ok_iff.mp h
  exact ⟨hread.wellFormed, hread.encode_eq⟩

/-- Settles O3: each mask compares the bits that `ReadAs` fixes for the row. -/
theorem opcodeMapSelectsCommand : Obligations.OpcodeMapSelectsCommand := by
  intro w
  simp only [decode_eq_ok_iff]
  exact
    ⟨(and_fullMask_eq_iff w 0x1000#16).trans ⟨.clr, fun (.clr h) => h⟩,
      (and_fullMask_eq_iff w 0x2000#16).trans ⟨.rdst, fun (.rdst h) => h⟩,
      (and_fullMask_eq_iff w 0x4000#16).trans ⟨.crci, fun (.crci h) => h⟩,
      (and_highMask_eq_iff w 8 0x50 (by decide)).trans ⟨fun h => ⟨_, .crcb h⟩, fun ⟨_, .crcb h⟩ => h⟩,
      (and_fullMask_eq_iff w 0x6000#16).trans ⟨.crcr, fun (.crcr h) => h⟩,
      (and_highMask_eq_iff w 8 0x70 (by decide)).trans ⟨fun h => ⟨_, .crcv h⟩, fun ⟨_, .crcv h⟩ => h⟩,
      (and_highMask_eq_iff w 8 0x80 (by decide)).trans ⟨fun h => ⟨_, .push h⟩, fun ⟨_, .push h⟩ => h⟩,
      (and_highMask_eq_iff w 8 0xA0 (by decide)).trans ⟨fun h => ⟨_, _, _, .sx h⟩, fun ⟨_, _, _, .sx h⟩ => h⟩,
      (and_highMask_eq_iff w 3 0x1600 (by decide)).trans ⟨fun h => ⟨_, _, .em h⟩, fun ⟨_, _, .em h⟩ => h⟩⟩

/-- Settles O4: the operands are the word's fields. -/
theorem operandsTakenFromWord : Obligations.OperandsTakenFromWord := by
  intro w i h
  cases decode_eq_ok_iff.mp h with
  | clr | rdst | crci | crcr => trivial
  | crcb | crcv | push => exact imm8Field_toNat w
  | sx => exact ⟨fieldWidthField_eq w, byteCountField_eq w, byteOrderField_eq_be_iff w⟩
  | em => exact ⟨byteCountField_eq w, byteOrderField_eq_be_iff w⟩

/-- Settles O5: no row reads the word. -/
theorem rejectedWordsAreTheIllegalOnes : Obligations.RejectedWordsAreTheIllegalOnes := by
  intro w
  have := w.isLt
  rw [exists_decode_eq_error_iff, exists_readAs_iff]
  simp only [List.mem_cons, List.not_mem_nil, or_false]
  omega

/-- Settles O6, by format. -/
theorem assemblerWordIsEncoding : Obligations.AssemblerWordIsEncoding :=
  fun _ h => encode_toNat h

/-- Settles O7: each word is the encoding of its command. -/
theorem sampleWordsDecode : Obligations.SampleWordsDecode :=
  ⟨rfl, rfl, rfl, rfl, rfl, rfl⟩

end Sys2Proof
end

section
/-! PROOFS. The response port (R72), and LOADV (R74): its body feeds every byte to BUF and to ACC. -/

namespace Sys2Proof.Machine

theorem FailCode.number_range (c : FailCode) : c.number ≠ 0#3 ∧ c.number ≠ 6#3 ∧ c.number ≠ 7#3 := by
  cases c <;> decide

/-- Settles O32. -/
theorem statusNumbers : Obligations.StatusNumbers := by
  refine ⟨fun r => ?_, rfl, rfl, rfl, rfl, rfl⟩
  cases r with
  | ok v => simp [Response.status, Response.value?]
  | fail c => simp [Response.status, Response.value?, c.number_range]

/-- CRCV in one equation: the verdict in the response and, when it is false, in CRCERR (R97). -/
theorem exec_crcv (c : Byte) (s : State) :
    exec (.crcv c) s = .next ({ s with crcErr := s.crcErr || s.acc != c }.respond
      (.ok (if s.acc = c then 1#32 else 0#32))) := by
  by_cases h : s.acc = c
  · subst h
    simp [exec_crcv_match]
  · rw [exec_crcv_mismatch h]
    simp [h, bne_iff_ne.mpr h, State.raiseCrcErr]

/-- PUSH and CRCB of each byte in turn, while BUF has room for all of them: all succeed. -/
theorem execAll_pushAndCheck (data : List Byte) (s : State) (h : s.len + data.length ≤ 4) :
    execAll (data.flatMap fun d => [.push d, .crcb d]) s =
      .next { s with
        acc := crc8Fold s.acc data, buf := s.buf ++ data,
        rsps := s.rsps ++ List.replicate (2 * data.length) (.ok 0#32) } := by
  induction data generalizing s with
  | nil => simp
  | cons d rest ih =>
    rw [List.length_cons] at h
    have hroom : s.len ≠ 4 := by omega
    rw [List.flatMap_cons, List.cons_append, List.cons_append, List.nil_append,
      execAll_cons (exec_push_room hroom), execAll_cons (exec_crcb d _), ih _ (by simp; omega)]
    simp [Nat.mul_add, List.replicate_succ, State.setAcc, State.bufAppend, State.respond]

theorem validFrame_append_singleton (data : List Byte) (c : Byte) : validFrame (data ++ [c]) = verifyCrc8 data c := by
  simp [validFrame]

/-- The responses to LOADV: CLR, each PUSH and each CRCB answer 0, and the CRCV answers its verdict. -/
def loadvResponses (data : List Byte) (c : Byte) : List Response :=
  .ok 0#32 :: List.replicate (2 * data.length) (.ok 0#32) ++ [.ok (if computeCrc8 data = c then 1#32 else 0#32)]

/-- All that LOADV does: after CLR there is room for every byte, and the CRCV compares their CRC. -/
theorem execAll_macroLoadv (data : List Byte) (c : Byte) (s : State) (h : data.length ≤ 4) :
    execAll (macroLoadv data c) s =
      .next { s with
        acc := computeCrc8 data, buf := data, crcErr := computeCrc8 data != c, ovf := false,
        rsps := s.rsps ++ loadvResponses data c } := by
  rw [macroLoadv, List.cons_append, execAll_cons (exec_clr s),
    execAll_append (execAll_pushAndCheck data _ (by simpa using h)), execAll_cons (exec_crcv c _)]
  rw [loadvResponses, List.cons_append, List.append_cons, ← List.append_assoc]
  rfl

theorem noFailure_loadvResponses (data : List Byte) (c : Byte) : noFailure (loadvResponses data c) = true := by
  simp [noFailure, loadvResponses, Response.status]

/-- Settles O51. -/
theorem loadvLoadsAndChecks : Obligations.LoadvLoadsAndChecks := by
  intro s data c _ hlen
  refine ⟨_, execAll_macroLoadv data c s hlen, rfl, rfl, rfl, ?_, _, rfl, noFailure_loadvResponses data c⟩
  rw [validFrame_append_singleton, verifyCrc8_iff]
  exact bne_eq_false_iff_eq

end Sys2Proof.Machine
end

section
/-! PROOFS. The algebra of the byte step (R91 to R93): it is linear over XOR and sends only 0 to 0, hence injective in each
argument. What the CRC detects (R101, R102) follows from this alone. -/

namespace Sys2Proof.Machine

/-- Settles O42: the top bit is the comparison with 128. -/
theorem crcBitStepArithmetic : Obligations.CrcBitStepArithmetic := by
  intro a
  have htop : a.getLsbD 7 = decide (128 ≤ a.toNat) := a.msb_eq_decide
  rw [crc8Bit, htop]
  by_cases h : 128 ≤ a.toNat
  · simp [h, Config.poly, Nat.shiftLeft_eq, Nat.mul_comm]
  · simp [h, Nat.shiftLeft_eq]
    omega

/-- Where the shifted-out bits differ, POLY enters on one side only; where they are both 1, it cancels (R91). -/
theorem crc8Bit_xor (a b : Byte) : crc8Bit (a ^^^ b) = crc8Bit a ^^^ crc8Bit b := by
  simp only [crc8Bit, BitVec.getLsbD_xor, BitVec.shiftLeft_xor_distrib]
  cases a.getLsbD 7 <;> cases b.getLsbD 7
  case false.false => rfl
  case false.true => exact BitVec.xor_assoc _ _ _
  case true.false =>
    change a <<< 1 ^^^ b <<< 1 ^^^ Config.poly = a <<< 1 ^^^ Config.poly ^^^ b <<< 1
    ac_rfl
  case true.true =>
    calc a <<< 1 ^^^ b <<< 1
      _ = a <<< 1 ^^^ b <<< 1 ^^^ (Config.poly ^^^ Config.poly) := by rw [BitVec.xor_self, BitVec.xor_zero]
      _ = a <<< 1 ^^^ Config.poly ^^^ (b <<< 1 ^^^ Config.poly) := by ac_rfl

/-- The divisor 0x131 is odd and a shifted byte is even, so no byte cancels against it (R91). -/
theorem crc8Bit_eq_zero_iff {a : Byte} : crc8Bit a = 0#8 ↔ a = 0#8 := by
  refine ⟨fun h => ?_, by rintro rfl; rfl⟩
  have hnat := crc8Bit_toNat a
  rw [h, BitVec.toNat_zero, eq_comm, Nat.xor_eq_zero_iff, Nat.shiftLeft_eq] at hnat
  apply BitVec.eq_of_toNat_eq
  rw [BitVec.toNat_zero]
  split at hnat <;> omega

theorem crc8Bits_xor (k : Nat) (a b : Byte) : crc8Bits k (a ^^^ b) = crc8Bits k a ^^^ crc8Bits k b := by
  induction k generalizing a b with
  | zero => rfl
  | succ k ih => rw [crc8Bits, crc8Bit_xor, ih]; rfl

theorem crc8Bits_eq_zero_iff {k : Nat} {a : Byte} : crc8Bits k a = 0#8 ↔ a = 0#8 := by
  induction k generalizing a with
  | zero => rfl
  | succ k ih => rw [crc8Bits, ih, crc8Bit_eq_zero_iff]

theorem crc8Byte_eq_table (a d : Byte) : crc8Byte a d = crc8Table (a ^^^ d) :=
  crc8Byte_eq_of_xor BitVec.zero_xor.symm

theorem crc8Table_xor (a b : Byte) : crc8Table (a ^^^ b) = crc8Table a ^^^ crc8Table b := by
  simp only [crc8Table, crc8Byte, BitVec.zero_xor, crc8Bits_xor]

theorem crc8Table_eq_zero_iff {b : Byte} : crc8Table b = 0#8 ↔ b = 0#8 := by
  rw [crc8Table, crc8Byte, BitVec.zero_xor, crc8Bits_eq_zero_iff]

/-- A linear map that sends only 0 to 0 is injective. -/
theorem crc8Table_injective : Function.Injective crc8Table := fun a b h =>
  BitVec.xor_eq_zero_iff.mp (crc8Table_eq_zero_iff.mp (by rw [crc8Table_xor, h, BitVec.xor_self]))

/-- Settles O43: on the finite set of bytes an injective map is a permutation. -/
theorem crcTableForm : Obligations.CrcTableForm :=
  ⟨crc8Byte_eq_table, crc8Table_injective.bijective_of_finite, fun _ => crc8Table_eq_zero_iff, crc8Table_xor⟩

theorem crc8Byte_xor (a a' d d' : Byte) : crc8Byte (a ^^^ a') (d ^^^ d') = crc8Byte a d ^^^ crc8Byte a' d' := by
  rw [crc8Byte_eq_table a, crc8Byte_eq_table a', ← crc8Table_xor, crc8Byte_eq_table]
  congr 1
  ac_rfl

theorem crc8Byte_eq_zero_iff {a d : Byte} : crc8Byte a d = 0#8 ↔ a = d := by
  rw [crc8Byte_eq_table, crc8Table_eq_zero_iff, BitVec.xor_eq_zero_iff]

theorem crc8Byte_left_inj {a a' d : Byte} : crc8Byte a d = crc8Byte a' d ↔ a = a' := by
  rw [crc8Byte_eq_table, crc8Byte_eq_table, crc8Table_injective.eq_iff, BitVec.xor_left_inj]

theorem crc8Byte_right_inj {a d d' : Byte} : crc8Byte a d = crc8Byte a d' ↔ d = d' := by
  rw [crc8Byte_eq_table, crc8Byte_eq_table, crc8Table_injective.eq_iff, BitVec.xor_right_inj]

/-- The bytes that follow never undo a difference in the accumulator (R102). -/
theorem crc8Fold_left_inj {a a' : Byte} {l : List Byte} : crc8Fold a l = crc8Fold a' l ↔ a = a' := by
  induction l generalizing a a' with
  | nil => rfl
  | cons d rest ih => rw [crc8Fold_cons, crc8Fold_cons, ih, crc8Byte_left_inj]

/-- The fold is linear in the accumulator and the sequence together (R102). -/
theorem crc8Fold_xor (a a' : Byte) {d e : List Byte} (h : d.length = e.length) :
    crc8Fold (a ^^^ a') (List.zipWith (fun x y => x ^^^ y) d e) = crc8Fold a d ^^^ crc8Fold a' e := by
  induction d generalizing a a' e with
  | nil => rw [List.length_eq_zero_iff.mp h.symm]; rfl
  | cons x d ih =>
    cases e with
    | nil => cases h
    | cons y e =>
      rw [List.zipWith_cons_cons, crc8Fold_cons, crc8Byte_xor, ih _ _ (Nat.succ.inj h)]
      rfl

theorem xor_singleBit_ne {b : Byte} {k : Nat} (hk : k < 8) : b ^^^ (1#8 <<< k) ≠ b := by
  have hbit : 1#8 <<< k ≠ 0#8 := by revert k; decide
  exact fun h => hbit ((BitVec.xor_right_inj b).mp (h.trans BitVec.xor_zero.symm))

/-- Settles O46: the trailing byte steps the accumulator to 0 exactly when it equals it. -/
theorem zeroResidue : Obligations.ZeroResidue := by
  intro d c
  rw [crc8Fold_append, crc8Fold_cons, crc8Fold_nil, crc8Byte_eq_zero_iff]
  exact eq_comm

/-- Settles O47: a flipped bit changes the accumulator after its byte, and the difference stays to the end. -/
theorem singleBitErrorsDetected : Obligations.SingleBitErrorsDetected := by
  refine ⟨fun d e h => ?_, fun before after b k hk heq => ?_⟩
  · rw [computeCrc8, computeCrc8, ← crc8Fold_xor _ _ h, BitVec.xor_zero]
  · rw [computeCrc8, computeCrc8, crc8Fold_append, crc8Fold_append, crc8Fold_cons, crc8Fold_cons, crc8Fold_left_inj,
      crc8Byte_right_inj] at heq
    exact xor_singleBit_ne hk heq

end Sys2Proof.Machine
end

section
/-! PROOFS. The CRC commands (R94 to R97), one at a time, and in the sequences that compute and verify a CRC (R74, R98 to
R100). -/

namespace Sys2Proof.Machine

/-- The word of a Format B command, as the sum of its opcode's word and its operand (R63, R73). -/
theorem add_imm8_eq_encodeB (op : BitVec 4) (b : Byte) :
    BitVec.ofNat 16 (4096 * op.toNat) + b.setWidth 16 = encodeB op b := by
  apply BitVec.eq_of_toNat_eq
  rw [encodeB_toNat, BitVec.toNat_add, BitVec.toNat_ofNat, BitVec.toNat_setWidth]
  omega

theorem decode_crcb_word (b : Byte) : decode (0x5000#16 + b.setWidth 16) = .ok (.crcb b) := by
  rw [show 0x5000#16 + b.setWidth 16 = encode (.crcb b) from add_imm8_eq_encodeB 0x5#4 b, decode_encode rfl]

theorem decode_crcv_word (b : Byte) : decode (0x7000#16 + b.setWidth 16) = .ok (.crcv b) := by
  rw [show 0x7000#16 + b.setWidth 16 = encode (.crcv b) from add_imm8_eq_encodeB 0x7#4 b, decode_encode rfl]

/-- The effect in the terms of the obligations: the registers reached and the one response given. -/
theorem CommandEffect.answers {s u : State} {i : Instr} {r : Response} (h : CommandEffect s i u r) :
    ∃ t, exec i s = .next t ∧ sameRegisters u t ∧ answeredWith s t r := by
  obtain ⟨hin, hrsps⟩ := h.frame
  exact ⟨u.respond r, h.exec_eq, ⟨rfl, rfl, rfl, rfl, fun _ => rfl⟩, by simp [hrsps], hin⟩

/-- Settles O17. -/
theorem crciInitialisesAcc : Obligations.CrciInitialisesAcc :=
  ⟨rfl, fun _ => CommandEffect.crci.answers⟩

/-- Settles O18. -/
theorem crcbStepsAcc : Obligations.CrcbStepsAcc :=
  fun _ b => ⟨decode_crcb_word b, (CommandEffect.crcb b).answers⟩

/-- Settles O19: zero-extension keeps the number. -/
theorem crcrReadsAcc : Obligations.CrcrReadsAcc := by
  refine ⟨rfl, fun s => ?_⟩
  obtain ⟨t, ht, hregs, hans⟩ := (CommandEffect.crcr (s := s)).answers
  exact ⟨t, _, ht, hregs, hans, BitVec.toNat_setWidth_of_le (by decide)⟩

/-- Settles O20, by the comparison of ACC with the expected byte. -/
theorem crcvAnswersVerdict : Obligations.CrcvAnswersVerdict := by
  refine fun s b => ⟨decode_crcv_word b, ?_⟩
  by_cases h : s.acc = b
  · simp only [if_pos h]
    exact (CommandEffect.crcvMatch h).answers
  · simp only [if_neg h]
    exact (CommandEffect.crcvMismatch h).answers

/-- Settles O45: CRCR's response is ACC zero-extended, and its low eight bits are ACC. -/
theorem verifyRoundTrip : Obligations.VerifyRoundTrip := by
  refine ⟨fun d => verifyCrc8_iff.mpr rfl, fun s t v ht hans => ?_⟩
  rw [exec_crcr] at ht
  cases ht
  have hv : s.acc.setWidth 32 = v := by simpa using hans.1
  have hacc : s.acc = v.setWidth 8 := by simp [← hv]
  exact ⟨_, exec_crcv_match hacc, ⟨rfl, rfl⟩, rfl⟩

/-- CRCB of each byte folds the bytes into ACC, and each answers 0 (R95, R98). -/
theorem execAll_crcbs (data : List Byte) (s : State) :
    execAll (data.map .crcb) s =
      .next { s with acc := crc8Fold s.acc data, rsps := s.rsps ++ List.replicate data.length (.ok 0#32) } := by
  induction data generalizing s with
  | nil => simp
  | cons d rest ih =>
    rw [List.map_cons, execAll_cons (exec_crcb d s), ih]
    simp [List.replicate_succ, State.setAcc, State.respond]

/-- After CRCI the CRCBs leave the CRC of the bytes in ACC, whatever it was before (R98). -/
theorem execAll_crci_crcbs (data : List Byte) (s : State) :
    execAll (.crci :: data.map .crcb) s =
      .next { s with acc := computeCrc8 data, rsps := s.rsps ++ List.replicate (data.length + 1) (.ok 0#32) } := by
  rw [execAll_cons (exec_crci s), execAll_crcbs]
  simp [List.replicate_succ, State.setAcc, State.respond, computeCrc8]

/-- Settles O48: the CRCR of `macroCrc8` answers the ACC that its CRCBs left. -/
theorem crcMacroComputesCrc : Obligations.CrcMacroComputesCrc := by
  refine ⟨rfl, fun s data => ?_, crc8Fold_append⟩
  rw [macroCrc8, execAll_append (execAll_crci_crcbs data s), execAll_cons (exec_crcr _)]
  exact ⟨_, rfl, rfl, List.getLast?_concat⟩

/-- Settles O50: the CRCV of `macroVcrc8` compares the ACC that its CRCBs left, and they leave CRCERR alone. -/
theorem verifyMacroGivesVerdict : Obligations.VerifyMacroGivesVerdict := by
  intro s data e
  rw [macroVcrc8, execAll_append (execAll_crci_crcbs data s), execAll_cons (exec_crcv e _)]
  refine ⟨_, rfl, ?_, rfl⟩
  simp [verifyCrc8_iff]

theorem checkedBytes_cons (i : Instr) (is : List Instr) :
    checkedBytes (i :: is) = checkedBytes [i] ++ checkedBytes is := by
  cases i <;> rfl

/-- Only CRCB steps ACC; only CLR and CRCI set it afresh (R31, R98). -/
theorem CommandEffect.acc_eq_fold {s u : State} {i : Instr} {r : Response} (h : CommandEffect s i u r)
    (hi : i.startsOver = false) : u.acc = crc8Fold s.acc (checkedBytes [i]) := by
  cases h with
  | clr | crci => cases hi
  | _ => rfl

theorem execAll_acc_eq_fold {is : List Instr} {s t : State} (h : execAll is s = .next t)
    (his : ∀ i ∈ is, i.startsOver = false) : t.acc = crc8Fold s.acc (checkedBytes is) := by
  induction is generalizing s with
  | nil => cases h; rfl
  | cons i rest ih =>
    obtain ⟨hi, hrest⟩ := List.forall_mem_cons.mp his
    obtain ⟨u, r, he, h'⟩ := execAll_cons_inv h
    rw [ih h' hrest, State.respond_acc, he.acc_eq_fold hi, ← crc8Fold_append, ← checkedBytes_cons]

/-- Settles O49, by induction on the commands. -/
theorem crcAcrossOtherCommands : Obligations.CrcAcrossOtherCommands := by
  intro is s his
  obtain ⟨t, ht⟩ := exists_execAll is s
  exact ⟨t, ht, execAll_acc_eq_fold ht his⟩

end Sys2Proof.Machine
end

section
/-! PROOFS. The decode family (R111 to R119): SX and EM have one form of response, in which the admission tests come first;
what an admitted SX answers bit by bit, and what an admitted EM answers as a number. -/

namespace Sys2Proof.Machine

/-- The response of a decode that computes `v`, after the three admission tests (R111). -/
def State.decodeResponse (s : State) (m : Nat) (formatOk : Bool) (v : Word) : Response :=
  match s.decodeAdmit m formatOk with
  | some c => .fail c
  | none => .ok v

theorem State.sxResponse_eq_decodeResponse (s : State) (n m : Nat) (bo : ByteOrder) :
    s.sxResponse n m bo = s.decodeResponse m (sxFormatOk n m) (s.sxValue n m bo) := rfl

theorem State.emResponse_eq_decodeResponse (s : State) (m : Nat) (bo : ByteOrder) :
    s.emResponse m bo = s.decodeResponse m (emFormatOk m) (s.emValue m bo) := rfl

/-- The first test that fails decides (R111). -/
theorem State.decodeResponse_eq_ite (s : State) (m : Nat) (formatOk : Bool) (v : Word) :
    s.decodeResponse m formatOk v =
      if s.ovf = true ∨ s.len ≠ m then .fail .length
      else if s.crcErr = true then .fail .checksum
      else if formatOk = true then .ok v else .fail .decode := by
  rcases s.decodeAdmit_cases m formatOk with
    ⟨ha, h⟩ | ⟨ha, ho, hl, hc⟩ | ⟨ha, ho, hl, hc, rfl⟩ | ⟨ha, ho, hl, hc, rfl⟩
  · simp only [State.decodeResponse, ha, if_pos h]
  · simp [State.decodeResponse, ha, ho, hl, hc]
  · simp [State.decodeResponse, ha, ho, hl, hc]
  · simp [State.decodeResponse, ha, ho, hl, hc]

theorem State.decodeResponse_congr {s s' : State} (hb : s'.buf = s.buf) (hc : s'.crcErr = s.crcErr)
    (ho : s'.ovf = s.ovf) (m : Nat) (formatOk : Bool) (v : Word) :
    s'.decodeResponse m formatOk v = s.decodeResponse m formatOk v := by
  rw [State.decodeResponse_eq_ite, State.decodeResponse_eq_ite, State.len, State.len, hb, hc, ho]

/-- Settles O28: both commands have the form `State.decodeResponse`, each with its own format test. -/
theorem decodeAdmissionOrder : Obligations.DecodeAdmissionOrder := by
  intro s i m formatOk hi
  obtain ⟨ok, v, he, hf⟩ : ∃ ok v, CommandEffect s i s (s.decodeResponse m ok v) ∧ (formatOk ↔ ok = true) := by
    rcases hi with ⟨n, bo, rfl, hf⟩ | ⟨bo, rfl, hf⟩
    · exact ⟨_, _, .sx n m bo, hf.trans sxFormatOk_iff.symm⟩
    · exact ⟨_, _, .em m bo, hf.trans emFormatOk_iff.symm⟩
  obtain ⟨t, ht, hregs, hans⟩ := he.answers
  refine ⟨t, _, ht, hregs, hans, ?_⟩
  rw [State.decodeResponse_eq_ite, hf]
  refine ⟨fun h => if_pos h, ?_, ?_, ?_⟩
  · rintro ⟨⟨ho, hl⟩, hc⟩
    simp [ho, hl, hc]
  · rintro ⟨⟨ho, hl⟩, hc, hok⟩
    simp [ho, hl, hc, hok]
  · rintro ⟨⟨ho, hl⟩, hc, hok⟩
    exact ⟨v, by simp [ho, hl, hc, hok]⟩

/-- A decode writes no register, and BUF and the two flags decide its response (R119). -/
theorem exists_decodeEffect {i : Instr} (hi : i.isDecode = true) (s : State) :
    ∃ r, ∀ s' : State, s'.buf = s.buf → s'.crcErr = s.crcErr → s'.ovf = s.ovf → CommandEffect s' i s' r := by
  cases i with
  | sx n m bo =>
    refine ⟨s.sxResponse n m bo, fun s' hb hc ho => ?_⟩
    have hsame : s'.sxResponse n m bo = s.sxResponse n m bo := by
      simp only [State.sxResponse_eq_decodeResponse, State.decodeResponse_congr hb hc ho, State.sxValue,
        State.bufRead_congr hb]
    exact hsame ▸ .sx n m bo
  | em m bo =>
    refine ⟨s.emResponse m bo, fun s' hb hc ho => ?_⟩
    have hsame : s'.emResponse m bo = s.emResponse m bo := by
      simp only [State.emResponse_eq_decodeResponse, State.decodeResponse_congr hb hc ho, State.emValue,
        State.bufRead_congr hb]
    exact hsame ▸ .em m bo
  | _ => cases hi

/-- Settles O33: the second state and the repeated execution meet the same BUF and flags as the first. -/
theorem decodesArePure : Obligations.DecodesArePure := by
  intro i s s' hi hb hc ho
  obtain ⟨r, he⟩ := exists_decodeEffect hi s
  exact ⟨s.respond r, s'.respond r, r, (he s rfl rfl rfl).exec_eq, (he s' hb hc ho).exec_eq,
    ⟨rfl, rfl, rfl, rfl, fun _ => rfl⟩, ⟨rfl, rfl⟩, ⟨rfl, rfl⟩, _, (he (s.respond r) rfl rfl rfl).exec_eq, rfl, rfl⟩

theorem State.sxResponse_admitted {s : State} {n m : Nat} (ho : s.ovf = false) (hl : s.len = m) (hc : s.crcErr = false)
    (hf : n ≤ 8 * m) (bo : ByteOrder) : s.sxResponse n m bo = .ok (s.sxValue n m bo) := by
  simp [sxResponse_eq_decodeResponse, decodeResponse_eq_ite, ho, hl, hc, sxFormatOk_iff.mpr hf]

theorem State.emResponse_admitted {s : State} {m : Nat} (ho : s.ovf = false) (hl : s.len = m) (hc : s.crcErr = false)
    (hf : m ≤ 2) (bo : ByteOrder) : s.emResponse m bo = .ok (s.emValue m bo) := by
  simp [emResponse_eq_decodeResponse, decodeResponse_eq_ite, ho, hl, hc, emFormatOk_iff.mpr hf]

/-- The sign bit of an `n`-bit field stands at bit n-1 (R7). -/
theorem msb_ofNat_eq_testBit {n : Nat} (hn : 1 ≤ n) (f : Nat) : (BitVec.ofNat n f).msb = f.testBit (n - 1) := by
  rw [BitVec.msb_eq_getLsbD_last, BitVec.getLsbD_ofNat]
  simp [show n - 1 < n by omega]

/-- Sign extension bit by bit (R7). -/
theorem sext32_getLsbD {n k : Nat} (hn : 1 ≤ n) (hk : k < 32) (f : Nat) :
    (sext32 f n).getLsbD k = f.testBit (if k < n then k else n - 1) := by
  rw [sext32, BitVec.getLsbD_signExtend, msb_ofNat_eq_testBit hn, BitVec.getLsbD_ofNat]
  split <;> simp [*]

/-- The field `v[n-1:0]` has the bits of `v` (R6). -/
theorem testBit_bits_low {v n k : Nat} (hk : k < n) : (bits v (n - 1) 0).testBit k = v.testBit k := by
  have hwidth : n - 1 + 1 - 0 = n := by omega
  simp [bits, hwidth, Nat.testBit_mod_two_pow, hk]

theorem State.sxValue_getLsbD (s : State) {n k : Nat} (m : Nat) (bo : ByteOrder) (hn : 1 ≤ n) (hk : k < 32) :
    (s.sxValue n m bo).getLsbD k = (s.bufRead m bo).testBit (if k < n then k else n - 1) := by
  rw [State.sxValue, sext32_getLsbD hn hk, testBit_bits_low]
  split <;> omega

/-- Settles O24. -/
theorem sxSignExtendsField : Obligations.SxSignExtendsField := by
  intro s n m bo hn _ ho hl hc hf
  obtain ⟨t, ht, hregs, hans⟩ := (CommandEffect.sx n m bo).answers (s := s)
  rw [State.sxResponse_admitted ho hl hc hf] at hans
  exact ⟨t, _, ht, hregs, hans, fun k hk => s.sxValue_getLsbD m bo hn hk⟩

/-- Sign extension as an addition (R113): the field stays below 2^32 with the ones above it added. -/
theorem sext32_toNat {f n : Nat} (h1 : 1 ≤ n) (h32 : n ≤ 32) (hf : f < 2 ^ n) :
    (sext32 f n).toNat = f + (if f.testBit (n - 1) then 1 else 0) * (2 ^ 32 - 2 ^ n) := by
  have hpow : 2 ^ n ≤ 2 ^ 32 := Nat.pow_le_pow_right (by decide) h32
  rw [sext32, BitVec.toNat_signExtend, msb_ofNat_eq_testBit h1, BitVec.toNat_setWidth, BitVec.toNat_ofNat,
    Nat.mod_eq_of_lt hf, Nat.mod_eq_of_lt (hf.trans_le hpow), ite_mul, one_mul, zero_mul]

/-- Sign extension keeps the signed reading of the field (R112). -/
theorem sext32_toInt {f n : Nat} (h1 : 1 ≤ n) (h32 : n ≤ 32) (hf : f < 2 ^ n) :
    (sext32 f n).toInt = if f < 2 ^ (n - 1) then (f : Int) else (f : Int) - 2 ^ n := by
  have hhalf : 2 ^ n = 2 * 2 ^ (n - 1) := by rw [← pow_succ', Nat.sub_add_cancel h1]
  have hsign : 2 * f < 2 ^ n ↔ f < 2 ^ (n - 1) := by omega
  rw [sext32, BitVec.toInt_signExtend_of_le h32, BitVec.toInt_eq_toNat_cond, BitVec.toNat_ofNat, Nat.mod_eq_of_lt hf]
  simp only [hsign, Nat.cast_pow, Nat.cast_ofNat]

/-- Settles O25: the sum of R113 is already below 2^32. -/
theorem signExtensionClosedForm : Obligations.SignExtensionClosedForm := by
  intro f n h1 h32 hf
  rw [← sext32_toNat h1 h32 hf, Nat.mod_eq_of_lt (sext32 f n).isLt]
  exact ⟨rfl, sext32_toInt h1 h32 hf⟩

/-- The mantissa as a remainder (R115). -/
theorem emMantissa_eq_mod {m : Nat} (hm : 1 ≤ m) (v : Nat) : emMantissa v m = v % 2 ^ (8 * m - 4) := by
  have hwidth : 8 * m - Config.expw - 1 + 1 - 0 = 8 * m - 4 := by rw [Config.expw]; omega
  rw [emMantissa, bits, hwidth, Nat.shiftRight_zero]

/-- The exponent as the low four bits of a quotient (R115). -/
theorem emExponent_eq_div_mod {m : Nat} (hm : 1 ≤ m) (v : Nat) : emExponent v m = v / 2 ^ (8 * m - 4) % 16 := by
  have hwidth : 8 * m - 1 + 1 - (8 * m - 4) = 4 := by omega
  rw [emExponent, bits, Config.expw, hwidth, Nat.shiftRight_eq_div_pow]
  rfl

/-- In a register of W bits nothing stands above the exponent (R115). -/
theorem emExponent_eq_div {v m : Nat} (hm : 1 ≤ m) (hv : v < 2 ^ (8 * m)) : emExponent v m = v / 2 ^ (8 * m - 4) := by
  have hsplit : 2 ^ (8 * m) = 2 ^ (8 * m - 4) * 16 := by rw [← pow_sub_mul_pow 2 (by omega : 4 ≤ 8 * m)]; rfl
  rw [emExponent_eq_div_mod hm]
  exact Nat.mod_eq_of_lt (Nat.div_lt_of_lt_mul (hsplit ▸ hv))

theorem emMantissa_lt {m : Nat} (hm : 1 ≤ m) (v : Nat) : emMantissa v m < 2 ^ (8 * m - 4) := by
  rw [emMantissa_eq_mod hm]
  exact Nat.mod_lt _ (by positivity)

theorem emExponent_le {m : Nat} (hm : 1 ≤ m) (v : Nat) : emExponent v m ≤ 15 := by
  rw [emExponent_eq_div_mod hm]
  omega

/-- The product has at most W-4+15 bits (R117). -/
theorem emProduct_lt {m : Nat} (hm : 1 ≤ m) (v : Nat) :
    emMantissa v m * 2 ^ emExponent v m < 2 ^ (8 * m + 11) :=
  calc emMantissa v m * 2 ^ emExponent v m
    _ < 2 ^ (8 * m - 4) * 2 ^ 15 :=
      Nat.mul_lt_mul_of_lt_of_le (emMantissa_lt hm v) (Nat.pow_le_pow_right (by decide) (emExponent_le hm v))
        (by positivity)
    _ = 2 ^ (8 * m + 11) := by rw [← pow_add]; congr 1; omega

/-- Settles O27. -/
theorem emProductFits : Obligations.EmProductFits := by
  intro v m h1 h2 _
  exact ⟨emMantissa_lt h1 v, emExponent_le h1 v, emProduct_lt h1 v, Nat.pow_lt_pow_right (by decide) (by omega)⟩

/-- The shift of a word of 32 bits is exact, since the product has at most 27 bits (R116, R117). -/
theorem State.emValue_toNat (s : State) {m : Nat} (h1 : 1 ≤ m) (h2 : m ≤ 2) (bo : ByteOrder) :
    (s.emValue m bo).toNat = emMantissa (s.bufRead m bo) m * 2 ^ emExponent (s.bufRead m bo) m := by
  have hpow : 2 ^ (8 * m + 11) ≤ 2 ^ 32 := Nat.pow_le_pow_right (by decide) (by omega)
  have hprod := (emProduct_lt h1 (s.bufRead m bo)).trans_le hpow
  have hmant := (Nat.le_mul_of_pos_right _ (Nat.two_pow_pos _)).trans_lt hprod
  rw [State.emValue, BitVec.toNat_shiftLeft, BitVec.toNat_ofNat, Nat.mod_eq_of_lt hmant, Nat.shiftLeft_eq,
    Nat.mod_eq_of_lt hprod]

/-- Settles O26. -/
theorem emAnswersExactProduct : Obligations.EmAnswersExactProduct := by
  intro s m bo h1 h2 ho hl hc
  obtain ⟨t, ht, hregs, hans⟩ := (CommandEffect.em m bo).answers (s := s)
  rw [State.emResponse_admitted ho hl hc h2] at hans
  refine ⟨t, _, ht, hregs, hans, ?_, ?_⟩
  · rw [s.emValue_toNat h1 h2, emMantissa_eq_mod h1, emExponent_eq_div h1 (State.bufRead_lt_two_pow hl bo)]
  · apply Nat.testBit_lt_two_pow
    calc (s.emValue m bo).toNat
      _ < 2 ^ (8 * m + 11) := s.emValue_toNat h1 h2 bo ▸ emProduct_lt h1 _
      _ ≤ 2 ^ 31 := Nat.pow_le_pow_right (by decide) (by omega)

end Sys2Proof.Machine
end

section
/-! PROOFS. The buffer family (R130): PUSH with room, and PUSH on a full buffer. -/

namespace Sys2Proof.Machine

/-- Settles O21: the effect is one `State.bufAppend`, which writes index LEN alone (R42). -/
theorem pushAppendsAtLen : Obligations.PushAppendsAtLen := by
  intro s b hroom
  refine ⟨_, (CommandEffect.pushRoom hroom).exec_eq, ?_, s.bufAppend_len b, ?_, rfl, rfl, rfl, rfl, rfl⟩
  · rw [State.respond_bufByte, State.bufAppend_bufByte, if_pos rfl]
  · intro i hi
    rw [State.respond_bufByte, State.bufAppend_bufByte, if_neg hi]

/-- Settles O22: the effect of a refused PUSH is `State.raiseOvf`, which writes OVF alone (R142). -/
theorem pushRefusedWhenFull : Obligations.PushRefusedWhenFull :=
  fun _ _ hfull => (CommandEffect.pushFull hfull).answers

end Sys2Proof.Machine
end

section
/-! PROOFS. The system family (R135, R136): CLR and the sticky flags it alone clears, and RDST. -/

namespace Sys2Proof.Machine

/-- Settles O15: the effect of CLR is `State.resetRegisters`, and by `CommandEffect.crcErr_set_iff` and
`CommandEffect.ovf_set_iff` a flag that is set survives every other command. -/
theorem clrEndsTransaction : Obligations.ClrEndsTransaction := by
  refine ⟨rfl, fun s => ⟨_, exec_clr s, rfl, rfl, fun _ => rfl, rfl, rfl, rfl, rfl⟩, fun i s t ht hi => ?_⟩
  obtain ⟨u, r, he, rfl⟩ := exec_eq_next_iff.mp ht
  exact ⟨fun hc => he.crcErr_set_iff.mpr ⟨hi, .inl hc⟩, fun ho => he.ovf_set_iff.mpr ⟨hi, .inl ho⟩⟩

/-- Settles O16: the response is `State.statusImage`, whose number weighs each flag by its place. -/
theorem rdstReadsStatusImage : Obligations.RdstReadsStatusImage := by
  refine ⟨rfl, fun s => ?_⟩
  obtain ⟨t, ht, hregs, hans⟩ := (CommandEffect.rdst (s := s)).answers
  refine ⟨t, _, ht, hregs, hans, ?_⟩
  rw [s.statusImage_toNat]
  cases s.crcErr <;> cases s.ovf <;> rfl

end Sys2Proof.Machine
end

section
/-! PROOFS. Failures (R140 to R151): the priority of the codes, the failing commands with what they write, and the code that is
never raised. -/

namespace Sys2Proof.Machine

/-- A response given in answer to a taken input is no register. -/
theorem sameRegisters_respond (s : State) (l : List HostInput) (r : Response) :
    sameRegisters s ({ s with inputs := l }.respond r) :=
  ⟨rfl, rfl, rfl, rfl, fun _ => rfl⟩

/-- Settles O9. -/
theorem illegalWordIsAnswered : Obligations.IllegalWordIsAnswered :=
  fun s _ rest _ h hd => ⟨_, step_illegal h hd, sameRegisters_respond s rest _, rfl, rfl⟩

/-- LENGTH before CHECKSUM before DECODE, for a format test that fails when `bad` holds (R111, R147). -/
theorem State.decodeResponse_priority (s : State) (m : Nat) {formatOk : Bool} {bad : Prop} [Decidable bad]
    (hbad : formatOk = true ↔ ¬ bad) (v : Word) :
    if s.ovf = true ∨ s.len ≠ m then s.decodeResponse m formatOk v = .fail .length
    else if s.crcErr = true then s.decodeResponse m formatOk v = .fail .checksum
    else if bad then s.decodeResponse m formatOk v = .fail .decode
    else ∃ x, s.decodeResponse m formatOk v = .ok x := by
  simp only [State.decodeResponse_eq_ite, hbad, ite_not]
  split_ifs
  · rfl
  · rfl
  · rfl
  · exact ⟨v, rfl⟩

/-- Settles O29: an illegal word is answered before any command is looked at; of a legal one the command's effect gives the
response, for SX and EM in the order of `State.decodeResponse_priority`. -/
theorem failurePriority : Obligations.FailurePriority := by
  intro s w rest h
  cases hd : decode w with
  | error why => exact ⟨_, _, step_illegal h hd, rfl, rfl⟩
  | ok i =>
    obtain ⟨u, r, he⟩ := exists_commandEffect i s
    obtain ⟨-, hrsps⟩ := he.frame
    refine ⟨_, r, (step_legal h hd).trans (he.withInputs rest).exec_eq, by simp [hrsps], ?_⟩
    cases he with
    | pushFull hfull => exact (if_pos hfull).mpr rfl
    | pushRoom hroom => exact (if_neg hroom).mpr ⟨_, rfl⟩
    | sx n m bo => exact s.decodeResponse_priority m (sxFormatOk_iff.trans Nat.not_lt.symm) _
    | em m bo => exact s.decodeResponse_priority m (emFormatOk_iff.trans Nat.not_lt.symm) _
    | _ => exact ⟨_, rfl⟩

/-- The codes of a decode's failure are those of the three admission tests (R111). -/
theorem State.decodeResponse_eq_fail {s : State} {m : Nat} {formatOk : Bool} {v : Word} {c : FailCode}
    (h : s.decodeResponse m formatOk v = .fail c) : c ∈ [.length, .checksum, .decode] := by
  rw [State.decodeResponse_eq_ite] at h
  split_ifs at h <;> cases h <;> decide

/-- The failing commands: a refused PUSH, which raises OVF, and a decode that is not admitted, which writes nothing
(R142 to R144, R148). -/
theorem CommandEffect.fail_cases {s u : State} {i : Instr} {r : Response} {c : FailCode} (h : CommandEffect s i u r)
    (hr : r = .fail c) :
    (∃ b, i = .push b ∧ c = .length ∧ u = s.raiseOvf) ∨
    (i.isDecode = true ∧ c ∈ [.length, .checksum, .decode] ∧ u = s) := by
  cases h with
  | pushFull =>
    cases hr
    exact .inl ⟨_, rfl, rfl, rfl⟩
  | sx n m bo => exact .inr ⟨rfl, State.decodeResponse_eq_fail hr, rfl⟩
  | em m bo => exact .inr ⟨rfl, State.decodeResponse_eq_fail hr, rfl⟩
  | _ => cases hr

/-- Settles O30: the response tells the step from an idle one and from a reset; what an illegal word writes is nothing, and what
a failing command writes is in `CommandEffect.fail_cases`. -/
theorem failureWritesNothingButOvf : Obligations.FailureWritesNothingButOvf := by
  intro s t c hstep hrsps
  cases stepEffect_of_step hstep with
  | idle | reset => simp at hrsps
  | illegal h hd =>
    refine ⟨fun _ _ _ h' hd' => ?_, fun _ => sameRegisters_respond s _ _⟩
    cases h.symm.trans h'
    cases hd.symm.trans hd'
  | @command w rest i u r h hd he =>
    have hr : r = .fail c := by simpa [he.frame] using hrsps
    rcases he.fail_cases hr with ⟨b, rfl, rfl, rfl⟩ | ⟨hi, -, rfl⟩
    · exact ⟨fun _ _ _ _ _ => ⟨rfl, sameRegisters_respond s.raiseOvf rest _⟩, fun hno => absurd hd (hno w rest b h)⟩
    · refine ⟨fun _ _ _ h' hd' => ?_, fun _ => sameRegisters_respond u rest _⟩
      cases h.symm.trans h'
      cases hd.symm.trans hd'
      cases hi

/-- Settles O31: a step appends Fail(ILLEGAL), the response of a command, or nothing, and TRANSPORT is no code of
`CommandEffect.fail_cases`. -/
theorem transportNeverRaised : Obligations.TransportNeverRaised := by
  intro s t hstep
  cases stepEffect_of_step hstep with
  | idle | reset => rfl
  | illegal => simp
  | @command w rest i u r h hd he =>
    have hr : r ≠ .fail .transport := by
      intro hr
      rcases he.fail_cases hr with ⟨_, _, hc, _⟩ | ⟨_, hc, _⟩
      · cases hc
      · simp at hc
    simp [he.frame, hr]

end Sys2Proof.Machine
end

section
/-! PROOFS. Reset (R170, R171), and the bytes that a missing CLR leaves in BUF (R175). -/

namespace Sys2Proof.Machine

theorem pushedBytes_map_push (data : List Byte) : pushedBytes (data.map .push) = data := by
  induction data with
  | nil => rfl
  | cons b rest ih => rw [List.map_cons, pushedBytes_cons, ih]; rfl

/-- PUSHes refuse a byte, which OVF shows, or append them all to what BUF held before. -/
theorem execAll_pushes_ovf_or_len {data : List Byte} {s t : State} (h : execAll (data.map .push) s = .next t) :
    t.ovf = true ∨ t.len = s.len + data.length := by
  cases ho : t.ovf with
  | true => exact .inl rfl
  | false =>
    have hbuf := (execAll_buf_of_noOvf h (by simp) ho).2
    rw [pushedBytes_map_push] at hbuf
    exact .inr (by rw [State.len, hbuf, List.length_append, State.len])

/-- SX after an overflow, or at another length than LEN (R111). -/
theorem State.sxResponse_eq_fail_length {s : State} {m : Nat} (h : s.ovf = true ∨ s.len ≠ m) (n : Nat)
    (bo : ByteOrder) : s.sxResponse n m bo = .fail .length := by
  rw [State.sxResponse_eq_decodeResponse, State.decodeResponse_eq_ite, if_pos h]

/-- Settles O54: after the PUSHes OVF is 1, or LEN counts the stale bytes too; either fails the length test. -/
theorem staleBufferIsCaught : Obligations.StaleBufferIsCaught := by
  intro s data n bo _ hstale _
  obtain ⟨t, ht⟩ := exists_execAll (data.map .push) s
  have hbad : t.ovf = true ∨ t.len ≠ data.length := (execAll_pushes_ovf_or_len ht).imp_right (by omega)
  refine ⟨t, _, ht, exec_sx n data.length bo t, ?_⟩
  rw [State.sxResponse_eq_fail_length hbad]
  exact ⟨rfl, rfl⟩

/-- Settles O10: the step is `State.resetRegisters`, after the reset is taken. -/
theorem resetBetweenCommands : Obligations.ResetBetweenCommands :=
  fun _ _ h => ⟨_, step_rst h, rfl, rfl, fun _ => rfl, rfl, rfl, rfl, rfl⟩

/-- No register shows which state was reset. -/
theorem sameRegisters_resetRegisters (s u : State) : sameRegisters s.resetRegisters u.resetRegisters :=
  ⟨rfl, rfl, rfl, rfl, fun _ => rfl⟩

/-- Settles O14: CLR and reset are both `State.resetRegisters`, of which the state at power-on is one more case. -/
theorem resetAndClrAgree : Obligations.ResetAndClrAgree :=
  fun s u rest h => ⟨_, _, exec_clr s, step_rst h, sameRegisters_resetRegisters s { u with inputs := rest },
    sameRegisters_resetRegisters State.reset s⟩

end Sys2Proof.Machine
end
